-- ==== Sys2Proof/Word.lean ====
section
/-! DEFINITION. The word types of the block (spec/00_scope.md R7: a byte is 8 bits, unsigned; results are
16 bits wide) and the type of report texts. -/

namespace Sys2Proof

/-- A byte of the image, of `CMD`, of `RBUF`; also the width of `ACC8` (R7, R10). -/
abbrev Byte := BitVec 8

/-- The 16-bit words `RES`, `TGT`, `SUM16`, `RMASK`, and the word read from `STATUS` (R10). -/
abbrev Half := BitVec 16

/-- A character string, as the list of its characters (report strings, label texts, command sources). -/
abbrev Text := List Char

end Sys2Proof
end

