-- ==== Sys2Proof/Syntax.lean ====
section
/-! DEFINITION. The 14 commands (spec/30_encoding.md R62), one constructor per row of spec/opcode_table.json. -/

namespace Sys2Proof

/-- A command of the block. No command has an operand: every address is fixed by the header layout (R61). -/
inductive Instr where
  /-- `LOGO_CHK`, 0x01, R115. -/
  | logoChk
  /-- `TITLE`, 0x02, R90. -/
  | title
  /-- `MANUF`, 0x03, R92. -/
  | manuf
  /-- `CGB`, 0x04, R80. -/
  | cgb
  /-- `SGB`, 0x05, R81. -/
  | sgb
  /-- `PUBLISHER`, 0x06, R101. -/
  | publisher
  /-- `CART`, 0x07, R103. -/
  | cart
  /-- `ROMSZ`, 0x08, R104. -/
  | romsz
  /-- `RAMSZ`, 0x09, R105. -/
  | ramsz
  /-- `DEST`, 0x0A, R106. -/
  | dest
  /-- `MASKVER`, 0x0B, R82. -/
  | maskver
  /-- `HDR_CHK`, 0x0C, R130. -/
  | hdrChk
  /-- `GLB_CHK`, 0x0D, R145. -/
  | glbChk
  /-- `LOGO_RENDER`, 0x0E, R120. -/
  | logoRender
  deriving DecidableEq, Repr

/-- The pseudo-commands of R70, which have no opcode of their own. -/
inductive Pseudo where
  | minimal
  | verify
  | full
  deriving DecidableEq, Repr

end Sys2Proof
end

