-- ==== Sys2Proof/WellFormed.lean ====
section
/-! DEFINITION. Well-formedness of commands and of command words. A command carries no operand (R60, R61), so every
`Instr` is well formed; what can be ill formed is the 8-bit word the host writes to `CMD` (R65). The checks on what
the host presents (the image, its length, the tables) are `Params.wf` and `Inputs.wf` in Machine/Ops.lean. -/

namespace Sys2Proof

/-- A command has no register field, no immediate and no mode bit (R60), so no term of `Instr` is ill formed. -/
def Instr.wellFormed : Instr → Bool
  | .logoChk | .title | .manuf | .cgb | .sgb | .publisher | .cart | .romsz | .ramsz | .dest | .maskver
  | .hdrChk | .glbChk | .logoRender => true

/-- The command words that are one of the 14 commands: 0x01 to 0x0E. 0x00 and 0x0F to 0xFF are illegal (R65). -/
def commandWordOk (c : Byte) : Bool := 1 ≤ c.toNat && c.toNat ≤ 14

end Sys2Proof
end

