-- ==== Sys2Proof/Decode.lean ====
section
/-! DEFINITION. Decoding of command words, total on any bytes and rejecting by name (spec/30_encoding.md R60 to R65),
and the encoder after it. -/

namespace Sys2Proof

/-- Why bytes are no command. -/
inductive Reject where
  /-- There is no byte to decode. -/
  | endOfInput
  /-- The word is 0x00 or 0x0F to 0xFF (R65). -/
  | illegalCommand (c : Byte)
  deriving DecidableEq, Repr

/-- The opcode map of R62: the opcode is the whole 8-bit word. -/
def opcodeTable : List (Byte × Instr) :=
  [(0x01, .logoChk), (0x02, .title), (0x03, .manuf), (0x04, .cgb), (0x05, .sgb), (0x06, .publisher), (0x07, .cart),
   (0x08, .romsz), (0x09, .ramsz), (0x0A, .dest), (0x0B, .maskver), (0x0C, .hdrChk), (0x0D, .glbChk),
   (0x0E, .logoRender)]

/-- `decode(c)` of R63: one of the 14 commands, or illegal. -/
def decodeByte (c : Byte) : Except Reject Instr :=
  match opcodeTable.find? (fun row => row.1 == c) with
  | some row => .ok row.2
  | none => .error (.illegalCommand c)

/-- The command at the head of a byte sequence and the bytes after it. Every command is one byte (R60). -/
def decodeBytes : List Byte → Except Reject (Instr × List Byte)
  | [] => .error .endOfInput
  | c :: rest =>
    match decodeByte c with
    | .ok i => .ok (i, rest)
    | .error e => .error e

/-- All commands of a byte sequence (the assembled form of R68), or the first byte that is none. -/
def disassemble : List Byte → Except Reject (List Instr)
  | [] => .ok []
  | c :: rest =>
    match decodeByte c, disassemble rest with
    | .ok i, .ok is => .ok (i :: is)
    | .error e, _ => .error e
    | _, .error e => .error e

/-- The decoder on a row of spec/opcode_table.json: one byte, bit 0 its least significant bit. -/
def decodeTableWord (nbits w : Nat) : Option Instr :=
  if nbits = 8 ∧ w < 256 then
    match decodeBytes [BitVec.ofNat 8 w] with
    | .ok (i, _) => some i
    | .error _ => none
  else none

/-- The opcode of a command (R62). -/
def opcode : Instr → Byte
  | .logoChk => 0x01
  | .title => 0x02
  | .manuf => 0x03
  | .cgb => 0x04
  | .sgb => 0x05
  | .publisher => 0x06
  | .cart => 0x07
  | .romsz => 0x08
  | .ramsz => 0x09
  | .dest => 0x0A
  | .maskver => 0x0B
  | .hdrChk => 0x0C
  | .glbChk => 0x0D
  | .logoRender => 0x0E

/-- The word of a command, format `C` (R60). -/
def encode (i : Instr) : List Byte := [opcode i]

/-- "The assembled form of a sequence is the list of opcode bytes in order" (R68). -/
def assemble (is : List Instr) : List Byte := is.flatMap encode

end Sys2Proof
end

