-- ==== Sys2Proof/Config.lean ====
section
/-! DEFINITION. What an implementation fixes and the values the spec leaves open (spec/00_scope.md R6,
spec/92_eei_decisions.md "Open parameters"). The parameters themselves are held in `Machine.State` as plain data, so
that a statement about every state holds for every value of every parameter; what stands here are the values they
have in `State.reset`, before a host has placed anything. -/

namespace Sys2Proof.Config

/-- The command set's version (R2, decision D1). -/
def commandSetVersion : Nat := 1

/-- `REF_LOGO` before the host has placed one: the spec gives none of its 48 values (R117, decision D27: OPEN), so
this is a free value without a body. Log entry 6. -/
opaque refLogo : Vector Byte 48

/-- `AW` in `State.reset`. DESIGN CHOICE 24: R6 leaves `AW` OPEN with `AW >= 9`, and
spec/93_implementation_defined.md U13 says that `AW >= 24` covers real images. Log entry 5. -/
def resetAddrWidth : Nat := 24

/-- `Decodable` as its characteristic mask, bit `b` being `Decodable(b)`: the spec's own default, `b <= 0x7F` (R6,
R94, decision D10). Log entry 7. -/
def defaultDecodable : BitVec 256 := 0xFFFFFFFFFFFFFFFFFFFFFFFFFFFFFFFF#256

end Sys2Proof.Config
end

