-- ==== Sys2Proof/Machine/State.lean ====
section
/-! DEFINITION. The state of the machine as plain data: the registers of spec/10_state.md R10, the parameters of
spec/00_scope.md R6 (held by the host, never written by the block), and the turns the host and the block are to take.
-/

namespace Sys2Proof.Machine

/-- A value of the type `Label` (R6, R10): the distinguished `UNKNOWN_LABEL`, or a descriptive string. Tables hold
texts, so `UNKNOWN_LABEL` is the image of no table key (decision D13). -/
inductive Label where
  | unknown
  | named (text : Text)
  deriving DecidableEq, Repr

/-- `FCODE` (R13): 0 none, 1 `IllegalCommand`, 2 `InputTooShort`; 3 is never produced. -/
inductive FaultCode where
  | none
  | illegalCommand
  | inputTooShort
  deriving DecidableEq, Repr

/-- The fields of `STATUS` (R13). Bits 15:10 are reserved and read as zero, so they are not represented
(93_implementation_defined.md U4); `Status.word` is the 16-bit word. -/
structure Status where
  busy : Bool
  done : Bool
  pass : Bool
  unk : Bool
  na : Bool
  newPub : Bool
  degr : Bool
  fault : Bool
  fcode : FaultCode
  deriving DecidableEq, Repr

/-- The block's state, exactly the registers of R10. `ADDR` is `AW` bits wide and never wraps (R17), so it is a
natural number, as decision D17 allows. -/
structure Regs where
  op : Byte
  status : Status
  res : Half
  tgt : Half
  acc8 : Byte
  sum16 : Half
  addr : Nat
  rlen : BitVec 6
  rmask : Half
  label : Label
  rbuf : Vector Byte 48
  deriving DecidableEq, Repr

/-- The image space (R40): the image `ROM` as its listed bytes and its length `LEN`. Addresses rise strictly, all are
below `LEN`, and an address below `LEN` that is not listed holds 0x00, which is never listed; so each image has one
representation. -/
structure Memory where
  cells : List Host.Cell
  len : Nat
  deriving DecidableEq, Repr

/-- A partial function from keys to texts (R6, R55), as its pairs in rising order of the key. -/
abbrev Table (κ : Type) := List (κ × Text)

/-- The parameters the host supplies and may change between commands (R202, R205): the image and `LEN`, the
reference logo, the six tables (R108). -/
structure Inputs where
  image : Memory
  refLogo : Vector Byte 48
  tOldPub : Table Byte
  tNewPub : Table (Byte × Byte)
  tCart : Table Byte
  tRomSz : Table Byte
  tRamSz : Table Byte
  tDest : Table Byte
  deriving DecidableEq, Repr

/-- The parameters fixed for an instance of the block (R6): the width `AW` of `ADDR`, and the predicate `Decodable` as
its characteristic mask, bit `b` being `Decodable(b)`. -/
structure Params where
  aw : Nat
  decodable : BitVec 256
  deriving DecidableEq, Repr

/-- The registers a host can read, under their names (R10). -/
inductive Reg where
  | op
  | status
  | res
  | tgt
  | acc8
  | sum16
  | addr
  | rlen
  | rmask
  | label
  | rbuf (i : Fin 48)
  deriving DecidableEq, Repr

/-- What a read of a register returns: an unsigned number, or a label (R10: `LABEL` is of type `Label`). -/
inductive RegValue where
  | num (n : Nat)
  | label (l : Label)
  deriving DecidableEq, Repr

/-- One turn of one of the two agents of R18. Which of them acts next is data of the state: the model's own field
`script`. Log entry 1. -/
inductive Turn where
  /-- The host writes `c` to `CMD`: `Issue(c)` (R19). -/
  | issue (c : Byte)
  /-- The host reads a register: `Read(reg)` (R22). -/
  | read (r : Reg)
  /-- The host resets the block: `Reset` (R23). -/
  | reset
  /-- The host presents an image, tables and a reference logo (R43, R202, R205). -/
  | present (x : Inputs)
  /-- The block takes its turn: `Exec` where `BUSY = 1`, nothing otherwise (R21). -/
  | exec
  /-- The host waits until `BUSY = 0` (R68); the block acts meanwhile. -/
  | awaitIdle
  /-- The host waits until `DONE = 1` (R68); the block acts meanwhile. -/
  | awaitDone
  deriving DecidableEq, Repr

/-- The state. `regs` is the block's state of R10 and nothing else in the block holds a value; `par` and `inp` are
R6's parameters; `script` is what the two agents are to do next, oldest first (empty: the block's turn); `lastRead` is
what the host's last `Read` returned. -/
structure State where
  par : Params
  inp : Inputs
  regs : Regs
  script : List Turn
  lastRead : Option (Reg × RegValue)
  deriving DecidableEq, Repr

/-- Why the machine stops. Both stops are safe (the machine stops where the spec defines no effect) and neither is
reachable: `Exec` starts only after an issue that made both checks (R188). The spec's two faults, `IllegalCommand` and
`InputTooShort`, are no stops: they are recorded in `STATUS` and the machine goes on (R185). -/
inductive Fault where
  /-- Raised by `Memory.read` through the meanings: a read at `a >= LEN`, where `M[a]` is not defined (R41). Safe. -/
  | imageOutOfBounds (a : Nat)
  /-- Raised by `blockTurn`: `BUSY = 1` while `OP` holds none of the 14 opcodes, a state no issue makes (R19, R201).
  Safe. -/
  | busyWithoutCommand (op : Byte)
  deriving DecidableEq, Repr

/-- Why a step has no meaning. -/
inductive Refusal where
  /-- Raised by `exec` for an instruction without a meaning; no arm of this model does. Safe. -/
  | notModelled (mnemonic : String)
  /-- Raised by `presentInputs`: the host changes the image, `LEN`, a table or the reference logo between an issue
  and `DONE` (R205; 93_implementation_defined.md U1: "the spec gives the run no meaning"). Safe. -/
  | inputsChangedWhileBusy
  /-- Raised by `presentInputs`: the host presents inputs that break a constraint of R6 (`LEN < 2^AW`), or that are
  not in their canonical form. Safe. -/
  | inputsOutsideConstraints
  deriving DecidableEq, Repr

/-- The outcome of a step or of a meaning. -/
abbrev Result := Host.Outcome State Fault Refusal

/-- The machine right after reset (R23, R200): every register zero, `LABEL = UNKNOWN_LABEL`. Reset gives the
parameters no value; here no image is presented (`LEN = 0`), no table populated, and the reference logo is a free
value (log entries 4 to 7). -/
def State.reset : State where
  par := { aw := Config.resetAddrWidth, decodable := Config.defaultDecodable }
  inp :=
    { image := { cells := [], len := 0 }
      refLogo := Config.refLogo
      tOldPub := []
      tNewPub := []
      tCart := []
      tRomSz := []
      tRamSz := []
      tDest := [] }
  regs :=
    { op := 0
      status :=
        { busy := false, done := false, pass := false, unk := false, na := false, newPub := false, degr := false,
          fault := false, fcode := .none }
      res := 0
      tgt := 0
      acc8 := 0
      sum16 := 0
      addr := 0
      rlen := 0
      rmask := 0
      label := .unknown
      rbuf := Vector.replicate 48 0 }
  script := []
  lastRead := none

end Sys2Proof.Machine
end

