-- ==== Sys2Proof/Machine/Flags.lean ====
section
/-! DEFINITION. The `STATUS` word and the computation of every flag and of the decodability mask (spec/10_state.md
R13, spec/41_text_fields.md R94). -/

namespace Sys2Proof.Machine

/-- `FCODE` as bits 9:8 (R13). -/
def FaultCode.code : FaultCode → Nat
  | .none => 0
  | .illegalCommand => 1
  | .inputTooShort => 2

/-- The 16-bit `STATUS` word (R13); bits 15:10 read as zero. -/
def Status.word (s : Status) : Half :=
  BitVec.ofNat 16
    (s.busy.toNat + 2 * s.done.toNat + 4 * s.pass.toNat + 8 * s.unk.toNat + 16 * s.na.toNat + 32 * s.newPub.toNat
      + 64 * s.degr.toNat + 128 * s.fault.toNat + 256 * s.fcode.code)

/-- `STATUS = 0`. -/
def Status.zero : Status :=
  { busy := false, done := false, pass := false, unk := false, na := false, newPub := false, degr := false,
    fault := false, fcode := .none }

/-- `Decodable(b)` (R6, R94). -/
def Params.isDecodable (p : Params) (b : Byte) : Bool := p.decodable.getLsbD b.toNat

/-- `m[i] <- v` for one bit of `RMASK`. -/
def setBit (m : Half) (i : Nat) (v : Bool) : Half :=
  if v then m ||| (1#16 <<< i) else m &&& ~~~(1#16 <<< i)

/-- `RMASK[i + j] <- not Decodable(bs[j])` for every `j` below the length of `bs` (R90, R92, R101). -/
def maskText (p : Params) : List Byte → Nat → Half → Half
  | [], _, m => m
  | b :: bs, i, m => maskText p bs (i + 1) (setBit m i (!p.isDecodable b))

/-- `DEGR` from `RMASK`: DecodeDegradation iff some bit is set (R13, R90). -/
def degraded (m : Half) : Bool := m != 0

/-- The `NA` condition of R92: every manufacturer byte is zero. -/
def allZero (bs : List Byte) : Bool := bs.all (· == 0)

/-- The verdict of the logo comparison: byte for byte over all 48 positions (R115). -/
def logoMatches (bs : List Byte) (ref : Vector Byte 48) : Bool := bs == ref.toList

/-- The verdict of the header checksum: accumulator against target byte (R130). -/
def hdrVerdict (acc target : Byte) : Bool := acc == target

/-- The verdict of the global checksum: sum against 16-bit target (R145). -/
def glbVerdict (sum target : Half) : Bool := sum == target

end Sys2Proof.Machine
end

