-- ==== Sys2Proof/Machine/Layout.lean ====
section
/-! DEFINITION. The header layout of spec/30_encoding.md R64, "defined symbolically once ... and shared by all
accessors and by the checksum routines". -/

namespace Sys2Proof.Machine.Layout

/-- An inclusive range of image addresses. -/
structure Range where
  start : Nat
  finish : Nat
  deriving DecidableEq, Repr

/-- The number of addresses in an inclusive range. -/
def Range.size (r : Range) : Nat := r.finish + 1 - r.start

def logo : Range := ⟨0x0104, 0x0133⟩
def title : Range := ⟨0x0134, 0x0143⟩
def manuf : Range := ⟨0x013F, 0x0142⟩
def cgb : Nat := 0x0143
def newPub : Range := ⟨0x0144, 0x0145⟩
def sgb : Nat := 0x0146
def cart : Nat := 0x0147
def romSz : Nat := 0x0148
def ramSz : Nat := 0x0149
def dest : Nat := 0x014A
def oldPub : Nat := 0x014B
def maskVer : Nat := 0x014C
def hdrSum : Nat := 0x014D
def glbSum : Range := ⟨0x014E, 0x014F⟩
/-- The range the header checksum covers, title through mask version. -/
def hdrRange : Range := ⟨0x0134, 0x014C⟩
/-- The entire header region (90_conflicts.md C2 takes 0x0104, not 0x0100). -/
def header : Range := ⟨0x0104, 0x014F⟩
/-- The minimum image length, 336. -/
def minLen : Nat := 0x0150
/-- The old publisher code that selects the new one (R6: fixed by the source). -/
def sentinel : Byte := 0x33

end Sys2Proof.Machine.Layout
end

