-- ==== Sys2Proof/Machine/Ops.lean ====
section
/-! DEFINITION. The named operations: image and table access, the checks on what a host presents, clear, fault entry,
issue, completion, register reads and reset (spec/10_state.md R19 to R23, spec/20_memory.md, spec/60_exceptions.md
R185). -/

namespace Sys2Proof.Machine

/-! ## The image space -/

/-- The byte listed at `a`, 0x00 where none is listed. -/
def cellAt : List Host.Cell → Nat → Byte
  | [], _ => 0
  | (k, v) :: cs, a => if a = k then v else cellAt cs a

/-- `ROM(a)`, meaningful for `a < LEN` (R6). -/
def Memory.byte (m : Memory) (a : Nat) : Byte := cellAt m.cells a

/-- `MemRead(a, 1)`, written `M[a]`: "returns `ROM(a)` and is defined only for `a < LEN`" (R41). -/
def Memory.read (m : Memory) (a : Nat) : Option Byte := if a < m.len then some (m.byte a) else none

/-- Put a byte at an address of a listing, keeping its form: zero is not listed. -/
def putCell : List Host.Cell → Nat → Byte → List Host.Cell
  | [], a, b => if b = 0 then [] else [(a, b)]
  | (k, v) :: cs, a, b =>
    if a < k then (if b = 0 then (k, v) :: cs else (a, b) :: (k, v) :: cs)
    else if a = k then (if b = 0 then cs else (a, b) :: cs)
    else (k, v) :: putCell cs a b

/-- The image that differs only in holding `b` at `a`; an address outside the image leaves it as it is. This is what
the HOST does to make another image (R138: "The write is the host's"); the block never writes the image (R42). -/
def Memory.write (m : Memory) (a : Nat) (b : Byte) : Memory :=
  if a < m.len then { m with cells := putCell m.cells a b } else m

/-- The image with the bytes `bs` from address `a` on. -/
def Memory.writeAll (m : Memory) (a : Nat) : List Byte → Memory
  | [] => m
  | b :: bs => Memory.writeAll (m.write a b) (a + 1) bs

/-- The image lengthened with zero bytes to at least `n` bytes. -/
def Memory.padTo (m : Memory) (n : Nat) : Memory := { m with len := max m.len n }

/-- The canonical form: listed addresses rise strictly and are below `LEN`, and no listed byte is 0x00. -/
def Memory.wf (m : Memory) : Bool :=
  decide (m.cells.Pairwise fun x y => x.1 < y.1) && m.cells.all fun c => decide (c.1 < m.len) && c.2 != 0

/-! ## The table spaces -/

/-- `T(k)` (R55): `some label`, or `none` for a key that is not in the table; it never fails. -/
def Table.get {κ : Type} [BEq κ] (t : Table κ) (k : κ) : Option Text := List.lookup k t

/-- The keys of a table rise strictly under their numeric value, so each key has one text. -/
def Table.wf {κ : Type} (key : κ → Nat) (t : Table κ) : Bool :=
  decide (t.Pairwise fun x y => key x.1 < key y.1)

/-- The numeric value of a new-publisher key, first character first (R45). -/
def newPubKey (k : Byte × Byte) : Nat := k.1.toNat * 256 + k.2.toNat

/-! ## The constraints on parameters and inputs -/

/-- The ten byte values that any `Decodable` must hold of: "TESTGAME" and "01" (R95). -/
def requiredDecodable : List Byte := [0x54, 0x45, 0x53, 0x54, 0x47, 0x41, 0x4D, 0x45, 0x30, 0x31]

/-- `AW >= 9` (R6) and `Decodable` holds of the bytes of R95. -/
def Params.wf (p : Params) : Bool := decide (9 ≤ p.aw) && requiredDecodable.all p.isDecodable

/-- `LEN < 2^AW` (R6), and the image and the tables in their canonical form. -/
def Inputs.wf (x : Inputs) (p : Params) : Bool :=
  x.image.wf && decide (x.image.len < 2 ^ p.aw)
    && Table.wf BitVec.toNat x.tOldPub && Table.wf newPubKey x.tNewPub && Table.wf BitVec.toNat x.tCart
    && Table.wf BitVec.toNat x.tRomSz && Table.wf BitVec.toNat x.tRamSz && Table.wf BitVec.toNat x.tDest

/-! ## Clear, fault entry, issue, completion -/

/-- Every register but `OP` at the value the clear of R20 gives it, and `OP` as given. -/
def Regs.cleared (op : Byte) : Regs where
  op := op
  status := Status.zero
  res := 0
  tgt := 0
  acc8 := 0
  sum16 := 0
  addr := 0
  rlen := 0
  rmask := 0
  label := .unknown
  rbuf := Vector.replicate 48 0

/-- Clear (R20): every register but `OP`. It is also what ends the record of a fault: there is no return command
(R187). -/
def clear (r : Regs) : Regs := Regs.cleared r.op

/-- `raise`: fault entry, "Its whole effect is `FAULT <- 1; FCODE <- code; DONE <- 1`, with `BUSY` left 0" (R185). -/
def raiseFault (code : FaultCode) (r : Regs) : Regs :=
  { r with status := { r.status with fault := true, fcode := code, done := true } }

/-- The value `Issue` gives `ADDR` (R17, R19). -/
def startAddr : Instr → Nat
  | .hdrChk => Layout.hdrRange.start
  | .glbChk => 0
  | .logoChk | .title | .manuf | .cgb | .sgb | .publisher | .cart | .romsz | .ramsz | .dest | .maskver
  | .logoRender => 0

/-- `Issue(c)` with an image of `len` bytes (R19): ignored while `BUSY = 1`; otherwise the clear, `OP <- c`, then
`IllegalCommand`, `InputTooShort`, or the start of the command, in this order of priority (R186). -/
def issue (c : Byte) (len : Nat) (r : Regs) : Regs :=
  if r.status.busy then r
  else
    let r0 := { clear r with op := c }
    match decodeByte c with
    | .error _ => raiseFault .illegalCommand r0
    | .ok i =>
      if len < Layout.minLen then raiseFault .inputTooShort r0
      else { r0 with status := { r0.status with busy := true }, addr := startAddr i }

/-- `BUSY <- 0; DONE <- 1`, the end of the completing step of every command (R21). -/
def complete (r : Regs) : Regs := { r with status := { r.status with busy := false, done := true } }

/-- `Reset` (R23): `OP <- 0` and the clear. -/
def resetRegs (r : Regs) : Regs := { clear r with op := 0 }

/-! ## Register reads -/

/-- The value of a register (R10, R22). A read of `CMD` returns `OP`. -/
def readReg (r : Reg) (g : Regs) : RegValue :=
  match r with
  | .op => .num g.op.toNat
  | .status => .num g.status.word.toNat
  | .res => .num g.res.toNat
  | .tgt => .num g.tgt.toNat
  | .acc8 => .num g.acc8.toNat
  | .sum16 => .num g.sum16.toNat
  | .addr => .num g.addr
  | .rlen => .num g.rlen.toNat
  | .rmask => .num g.rmask.toNat
  | .label => .label g.label
  | .rbuf i => .num g.rbuf[i].toNat

/-- The number of a register (R10). -/
def Reg.number : Reg → Nat
  | .op => 0
  | .status => 1
  | .res => 2
  | .tgt => 3
  | .acc8 => 4
  | .sum16 => 5
  | .addr => 6
  | .rlen => 7
  | .rmask => 8
  | .label => 9
  | .rbuf i => 16 + i.val

/-- The register with a number (R10); 10 to 15 and 64 on number none. -/
def Reg.ofNumber (n : Nat) : Option Reg :=
  match n with
  | 0 => some .op
  | 1 => some .status
  | 2 => some .res
  | 3 => some .tgt
  | 4 => some .acc8
  | 5 => some .sum16
  | 6 => some .addr
  | 7 => some .rlen
  | 8 => some .rmask
  | 9 => some .label
  | n => if h : 16 ≤ n ∧ n < 64 then some (.rbuf ⟨n - 16, by omega⟩) else none

/-! ## States and outcomes -/

/-- The state with other registers and nothing else changed. -/
def State.withRegs (s : State) (r : Regs) : State := { s with regs := r }

/-- The next state after a step that only changed registers. -/
def goOn (s : State) (r : Regs) : Result := .next (s.withRegs r)

/-- The next state after a completing step (R21). -/
def finish (s : State) (r : Regs) : Result := goOn s (complete r)

end Sys2Proof.Machine
end

