-- ==== Sys2Proof/Machine/Operands.lean ====
section
/-! DEFINITION. How values are assembled from image bytes (spec/30_encoding.md R67), how results are placed in
registers, and the reads that the meanings are written over. -/

namespace Sys2Proof.Machine

/-- `zext_16` of a byte (R54, R67). -/
def zext16 (b : Byte) : Half := b.setWidth 16

/-- `{b0, b1}`: the byte at the lower address is the more significant (R44, R101). -/
def bigEndian16 (b0 b1 : Byte) : Half := (b0 ++ b1 : BitVec 16)

/-- `hi4(b) = b[7:4]` (R7). -/
def hi4 (b : Byte) : BitVec 4 := b.extractLsb' 4 4

/-- `lo4(b) = b[3:0]` (R7). -/
def lo4 (b : Byte) : BitVec 4 := b.extractLsb' 0 4

/-- `M[a .. a+n-1]`, the lowest address first (R45); none where a read is out of bounds. -/
def Memory.slice (m : Memory) (a : Nat) : Nat → Option (List Byte)
  | 0 => some []
  | n + 1 =>
    match m.read a, Memory.slice m (a + 1) n with
    | some b, some bs => some (b :: bs)
    | _, _ => none

/-- Go on with the byte `M[a]`. -/
def withByte (s : State) (a : Nat) (k : Byte → Result) : Result :=
  match s.inp.image.read a with
  | some b => k b
  | none => .fault (.imageOutOfBounds a)

/-- Go on with the `n` bytes from `a` on. -/
def withSlice (s : State) (a n : Nat) (k : List Byte → Result) : Result :=
  match s.inp.image.slice a n with
  | some bs => k bs
  | none => .fault (.imageOutOfBounds (a + n - 1))

/-- `RBUF[i] <- bs[i]` for every `i` below the length of `bs`; the other bytes keep their value. -/
def writeRbuf (buf : Vector Byte 48) (bs : List Byte) : Vector Byte 48 :=
  ⟨⟨(bs ++ buf.toList.drop bs.length).take 48⟩, by simp; omega⟩

/-- The 16-bit target of `GLB_CHK`: 0x014E, then 0x014F (R44, R47). -/
def withTarget16 (s : State) (k : Half → Result) : Result :=
  withByte s Layout.glbSum.start fun b0 => withByte s Layout.glbSum.finish fun b1 => k (bigEndian16 b0 b1)

/-- `Lookup(T, k)`, given `T(k)` (R100). -/
def lookupLabel (hit : Option Text) (r : Regs) : Regs :=
  match hit with
  | some l => { r with label := .named l, status := { r.status with unk := false } }
  | none => { r with label := .unknown, status := { r.status with unk := true } }

end Sys2Proof.Machine
end

