-- ==== Sys2Proof/Machine/GlobalChecksum.lean ====
section
/-! DEFINITION. The checksum-16 image sum, `GLB_CHK` (spec/45_global_checksum.md). -/

namespace Sys2Proof.Machine

/-- The update `(sum + b) mod 65536` (R148): the carry out of bit 15 is discarded. -/
def glbUpdate (sum : Half) (b : Byte) : Half := sum + zext16 b

/-- The two addresses outside the sum, 0x014E and 0x014F, in every image (R149). -/
def excluded (a : Nat) : Bool := a == Layout.glbSum.start || a == Layout.glbSum.finish

/-- One Exec step of `GLB_CHK` (R146): accumulating or skipping while `ADDR < LEN`, then completing. -/
def execGlbChk (s : State) : Result :=
  if s.regs.addr < s.inp.image.len then
    if excluded s.regs.addr then goOn s { s.regs with addr := s.regs.addr + 1 }
    else
      withByte s s.regs.addr fun b =>
        goOn s { s.regs with sum16 := glbUpdate s.regs.sum16 b, addr := s.regs.addr + 1 }
  else
    withTarget16 s fun t =>
      finish s
        { s.regs with
          res := s.regs.sum16
          tgt := t
          status := { s.regs.status with pass := glbVerdict s.regs.sum16 t } }

end Sys2Proof.Machine
end

