-- ==== Sys2Proof/Machine/HeaderChecksum.lean ====
section
/-! DEFINITION. The checksum-8 running accumulator, `HDR_CHK` (spec/44_header_checksum.md). -/

namespace Sys2Proof.Machine

/-- The update `(acc - b - 1) mod 256` (R132): accumulator minus byte minus one (R133). -/
def hdrUpdate (acc b : Byte) : Byte := acc - b - 1

/-- One Exec step of `HDR_CHK` (R131): accumulating while `ADDR <= 0x014C`, then completing. -/
def execHdrChk (s : State) : Result :=
  if s.regs.addr ≤ Layout.hdrRange.finish then
    withByte s s.regs.addr fun b =>
      goOn s { s.regs with acc8 := hdrUpdate s.regs.acc8 b, addr := s.regs.addr + 1 }
  else
    withByte s Layout.hdrSum fun t =>
      finish s
        { s.regs with
          res := zext16 s.regs.acc8
          tgt := zext16 t
          status := { s.regs.status with pass := hdrVerdict s.regs.acc8 t } }

end Sys2Proof.Machine
end

