-- ==== Sys2Proof/Machine/Logo.lean ====
section
/-! DEFINITION. The logo commands `LOGO_CHK`, `LOGO_RENDER` (spec/43_logo.md). -/

namespace Sys2Proof.Machine

/-- `LOGO_CHK` (R115): the 48 raw bytes, and the verdict of the exact comparison with `REF_LOGO`. -/
def execLogoChk (s : State) : Result :=
  withSlice s Layout.logo.start Layout.logo.size fun bs =>
    finish s
      { s.regs with
        rbuf := writeRbuf s.regs.rbuf bs
        rlen := 48
        status := { s.regs.status with pass := logoMatches bs s.inp.refLogo } }

/-- `Nibble(h, r, c)` of the logo bytes `logo` (R121). -/
def nibble (logo : List Byte) (h r c : Nat) : BitVec 4 :=
  match r with
  | 0 => hi4 (logo.getD (24 * h + 2 * c) 0)
  | 1 => lo4 (logo.getD (24 * h + 2 * c) 0)
  | 2 => hi4 (logo.getD (24 * h + (2 * c + 1)) 0)
  | _ => lo4 (logo.getD (24 * h + (2 * c + 1)) 0)

/-- Byte `j = 6 * (4*h + r) + k` of the rendering (R120). -/
def renderByte (logo : List Byte) (j : Nat) : Byte :=
  let h := j / 24
  let r := j / 6 % 4
  let k := j % 6
  (nibble logo h r (2 * k) ++ nibble logo h r (2 * k + 1) : BitVec 8)

/-- The 48 bytes of the rendered grid, row by row. -/
def renderLogo (logo : List Byte) : List Byte := (List.range 48).map (renderByte logo)

/-- `LOGO_RENDER` (R120): the image's own logo bytes as 8 rows of 48 cells. -/
def execLogoRender (s : State) : Result :=
  withSlice s Layout.logo.start Layout.logo.size fun bs =>
    finish s { s.regs with rbuf := writeRbuf s.regs.rbuf (renderLogo bs), rlen := 48 }

end Sys2Proof.Machine
end

