-- ==== Sys2Proof/Machine/TextFields.lean ====
section
/-! DEFINITION. The text field commands `TITLE`, `MANUF` (spec/41_text_fields.md). -/

namespace Sys2Proof.Machine

/-- `RBUF[i] <- bs[i]`, `RLEN <- ` the number of bytes. -/
def placeText (bs : List Byte) (r : Regs) : Regs :=
  { r with rbuf := writeRbuf r.rbuf bs, rlen := BitVec.ofNat 6 bs.length }

/-- `RMASK[i] <- not Decodable(bs[i])`, `DEGR <- (RMASK != 0)` (R94). -/
def markText (p : Params) (bs : List Byte) (r : Regs) : Regs :=
  { r with
    rmask := maskText p bs 0 r.rmask
    status := { r.status with degr := degraded (maskText p bs 0 r.rmask) } }

/-- `TITLE` (R90): all 16 bytes, zero bytes included (R91). -/
def execTitle (s : State) : Result :=
  withSlice s Layout.title.start Layout.title.size fun bs => finish s (markText s.par bs (placeText bs s.regs))

/-- `MANUF` (R92): four bytes; `NA` in place of the mask when all four are zero (decision D14). -/
def execManuf (s : State) : Result :=
  withSlice s Layout.manuf.start Layout.manuf.size fun bs =>
    if allZero bs then
      finish s { placeText bs s.regs with status := { s.regs.status with na := true } }
    else finish s (markText s.par bs (placeText bs s.regs))

end Sys2Proof.Machine
end

