-- ==== Sys2Proof/Machine/Lookup.lean ====
section
/-! DEFINITION. The table-lookup commands `PUBLISHER`, `CART`, `ROMSZ`, `RAMSZ`, `DEST` (spec/42_lookup_fields.md).
The choice of the table is the table-select multiplexer of spec/20_memory.md R55. -/

namespace Sys2Proof.Machine

/-- `RES <- zext_16(M[a]); Lookup(T, M[a])`, then completion. -/
def lookupField (a : Nat) (t : Table Byte) (s : State) : Result :=
  withByte s a fun b => finish s (lookupLabel (t.get b) { s.regs with res := zext16 b })

/-- The new branch of `PUBLISHER`, on its two code bytes: the table is consulted only when both are decodable
(R101, R102). -/
def newPublisher (s : State) (b0 b1 : Byte) : Regs :=
  let r := markText s.par [b0, b1]
    (placeText [b0, b1]
      { s.regs with status := { s.regs.status with newPub := true }, res := bigEndian16 b0 b1 })
  lookupLabel (if r.rmask = 0 then s.inp.tNewPub.get (b0, b1) else none) r

/-- The old branch of `PUBLISHER` (R101). -/
def oldPublisher (s : State) (old : Byte) : Regs :=
  lookupLabel (s.inp.tOldPub.get old)
    { s.regs with status := { s.regs.status with newPub := false }, res := zext16 old }

/-- `PUBLISHER` (R101): the old code selects the branch; the new code is read only on the new branch (R56). -/
def execPublisher (s : State) : Result :=
  withByte s Layout.oldPub fun old =>
    if old = Layout.sentinel then
      withByte s Layout.newPub.start fun b0 =>
        withByte s Layout.newPub.finish fun b1 => finish s (newPublisher s b0 b1)
    else finish s (oldPublisher s old)

/-- `CART` (R103). -/
def execCart (s : State) : Result := lookupField Layout.cart s.inp.tCart s

/-- `ROMSZ` (R104): the label is a size description; no size is computed. -/
def execRomsz (s : State) : Result := lookupField Layout.romSz s.inp.tRomSz s

/-- `RAMSZ` (R105). -/
def execRamsz (s : State) : Result := lookupField Layout.ramSz s.inp.tRamSz s

/-- `DEST` (R106). -/
def execDest (s : State) : Result := lookupField Layout.dest s.inp.tDest s

end Sys2Proof.Machine
end

