-- ==== Sys2Proof/Machine/Raw.lean ====
section
/-! DEFINITION. The raw-byte field commands `CGB`, `SGB`, `MASKVER` (spec/40_raw_fields.md). -/

namespace Sys2Proof.Machine

/-- `RES <- zext_16(M[a])`, then completion. -/
def rawField (a : Nat) (s : State) : Result :=
  withByte s a fun b => finish s { s.regs with res := zext16 b }

/-- `CGB` (R80): the byte at 0x0143. -/
def execCgb (s : State) : Result := rawField Layout.cgb s

/-- `SGB` (R81): the byte at 0x0146, not 0x0143 (90_conflicts.md C7). -/
def execSgb (s : State) : Result := rawField Layout.sgb s

/-- `MASKVER` (R82): the byte at 0x014C. -/
def execMaskver (s : State) : Result := rawField Layout.maskVer s

end Sys2Proof.Machine
end

