-- ==== Sys2Proof/Machine/Dispatch.lean ====
section
/-! DEFINITION. One Exec step of the command in progress (spec/10_state.md R21), one arm per command. -/

namespace Sys2Proof.Machine

def exec (i : Instr) (s : State) : Host.Outcome State Fault Refusal :=
  match i with
  | .logoChk => Sys2Proof.Machine.execLogoChk s
  | .title => Sys2Proof.Machine.execTitle s
  | .manuf => Sys2Proof.Machine.execManuf s
  | .cgb => Sys2Proof.Machine.execCgb s
  | .sgb => Sys2Proof.Machine.execSgb s
  | .publisher => Sys2Proof.Machine.execPublisher s
  | .cart => Sys2Proof.Machine.execCart s
  | .romsz => Sys2Proof.Machine.execRomsz s
  | .ramsz => Sys2Proof.Machine.execRamsz s
  | .dest => Sys2Proof.Machine.execDest s
  | .maskver => Sys2Proof.Machine.execMaskver s
  | .hdrChk => Sys2Proof.Machine.execHdrChk s
  | .glbChk => Sys2Proof.Machine.execGlbChk s
  | .logoRender => Sys2Proof.Machine.execLogoRender s

end Sys2Proof.Machine
end

