-- ==== Sys2Proof/Machine/Sequencer.lean ====
section
/-! DEFINITION. The turns of the two agents (spec/10_state.md R18): the block's `Exec`, the host's `Issue`, `Read`,
`Reset`, and the host's presenting of inputs between commands (spec/70_reset_and_hazards.md R202 to R205). -/

namespace Sys2Proof.Machine

/-- The command word whose Exec step is next: `OP`, which stands where other machines have an instruction at a
program counter (R16). -/
def commandBytes (s : State) : List Byte := [s.regs.op]

/-- The block's turn: `Exec`, "enabled exactly when `BUSY = 1`" (R18, R21); an idle block waits (R23). -/
def blockTurn (s : State) : Result :=
  if s.regs.status.busy then
    match decodeBytes (commandBytes s) with
    | .ok (i, _) => exec i s
    | .error _ => .fault (.busyWithoutCommand s.regs.op)
  else .next s

/-- The host presents inputs: free between commands (R205), without a meaning during one (U1). No register of the
block changes (R11). -/
def presentInputs (x : Inputs) (s : State) : Result :=
  if s.regs.status.busy = true ∧ x ≠ s.inp then .refused .inputsChangedWhileBusy
  else if x.wf s.par then .next { s with inp := x }
  else .refused .inputsOutsideConstraints

/-- One turn. With an empty script it is the block's, so the block always gets its next turn (R210). -/
def takeTurn (s : State) : Result :=
  match s.script with
  | [] => blockTurn s
  | .issue c :: ts => .next { s with script := ts, regs := issue c s.inp.image.len s.regs }
  | .read r :: ts => .next { s with script := ts, lastRead := some (r, readReg r s.regs) }
  | .reset :: ts => .next { s with script := ts, regs := resetRegs s.regs }
  | .present x :: ts => presentInputs x { s with script := ts }
  | .exec :: ts => blockTurn { s with script := ts }
  | .awaitIdle :: ts => if s.regs.status.busy then blockTurn s else .next { s with script := ts }
  | .awaitDone :: ts => if s.regs.status.done then .next { s with script := ts } else blockTurn s

/-- The state in which the block's very next turn is the (first) Exec step of the command with this word: the block
reset, an image of at least 0x150 bytes in place (zero bytes added where it is shorter), and the word issued. An
illegal word leaves the record of its fault. Log entry 2. -/
def launch (c : Byte) (s : State) : State :=
  let image := s.inp.image.padTo Layout.minLen
  { s with
    inp := { s.inp with image := image }
    regs := issue c image.len (resetRegs s.regs)
    script := .exec :: s.script }

end Sys2Proof.Machine
end

