-- ==== Sys2Proof/Machine/Step.lean ====
section
/-! DEFINITION. The step of the machine, and how a command word comes to be the next thing it runs. -/

namespace Sys2Proof.Machine

/-- One step: the next turn of the script, or the block's turn (R18, R21). -/
def step (s : State) : Host.Outcome State Fault Refusal := takeTurn s

/-- `s` with the command word `w` issued, so that the next step runs it (`launch`). A command has 8 bits; bits above
`nbits` are zero. -/
def State.withFetchWord (s : State) (nbits w : Nat) : State := launch (BitVec.ofNat 8 (w % 2 ^ nbits)) s

end Sys2Proof.Machine
end

