-- ==== Sys2Proof/Machine/Report.lean ====
section
/-! DEFINITION. The report strings of spec/46_report_strings.md: the presentation layer outside the block, as pure
functions of the registers. "None of these rules changes any state." -/

namespace Sys2Proof.Machine

/-- An upper-case hexadecimal digit. -/
def hexDigit (n : BitVec 4) : Char :=
  ['0', '1', '2', '3', '4', '5', '6', '7', '8', '9', 'A', 'B', 'C', 'D', 'E', 'F'].getD n.toNat '0'

/-- `Hex2(b)`, the default `HEXFMT`: two digits, zero-padded, upper case, no prefix (R161). -/
def hex2 (b : Byte) : Text := [hexDigit (hi4 b), hexDigit (lo4 b)]

/-- The parameters of the presentation layer: `HEXFMT` with `Hex2` as its default (R161), the wording of the unknown
indicator (R162), `Repl` (R94), and the two display characters of the logo grid (R171). They are arguments of the
reports and no part of the state. Only `HEXFMT` has a default in the spec. -/
structure Presentation where
  hexfmt : Byte → Text := hex2
  unknownText : Text
  repl : Char
  filled : Char
  blank : Char

/-- The character whose code is a byte (R162). -/
def charOf (b : Byte) : Char := Char.ofNat b.toNat

/-- What R161 and R94 ask of the parameters: two zero-padded hexadecimal digits (the CGB flag's format), and a
replacement character that is no decoded character. R161 leaves the digits' case and a prefix open, and so does this:
each digit may be of either case, and any text, the same for every byte and possibly empty, may stand before the digits.
DESIGN CHOICE, log entry 17: that this text is the same for every byte and that nothing stands after the digits. -/
def Presentation.Admissible (pr : Presentation) (p : Params) : Prop :=
  (∃ lead : Text, ∀ b, ∃ digits : Text, pr.hexfmt b = lead ++ digits ∧ digits.map Char.toUpper = hex2 b) ∧
  ∀ b, p.isDecodable b = true → charOf b ≠ pr.repl

/-- `Name(l)` (R162). -/
def Presentation.name (pr : Presentation) : Label → Text
  | .unknown => pr.unknownText
  | .named t => t

/-- `Text(bytes, mask)`, the first byte being masked by bit `i` (R162). -/
def Presentation.text (pr : Presentation) : List Byte → Half → Nat → Text
  | [], _, _ => []
  | b :: bs, mask, i => (if mask.getLsbD i then pr.repl else charOf b) :: pr.text bs mask (i + 1)

/-- `Trim(bytes)`: without the longest suffix of zero bytes (R91). -/
def trim (bs : List Byte) : List Byte := (bs.reverse.dropWhile (· == 0)).reverse

/-- `RES[7:0]`. -/
def lowByte (v : Half) : Byte := v.setWidth 8

/-- `RBUF[0..n-1]`. -/
def Regs.bytes (r : Regs) (n : Nat) : List Byte := r.rbuf.toList.take n

/-- Whether cell `x` of row `y` of the rendered grid is filled: bit `7 - (x mod 8)` of `RBUF[6*y + (x div 8)]`
(R122). -/
def Regs.cell (r : Regs) (y x : Nat) : Bool := (r.rbuf.toList.getD (6 * y + x / 8) 0).getLsbD (7 - x % 8)

/-- Line `y` of the character grid, 48 characters (R171). -/
def gridLine (pr : Presentation) (r : Regs) (y : Nat) : Text :=
  (List.range 48).map fun x => if r.cell y x then pr.filled else pr.blank

/-- "PASS" or "FAIL" (R170). -/
def verdictText (pass : Bool) : Text := if pass then ['P', 'A', 'S', 'S'] else ['F', 'A', 'I', 'L']

/-- The old-code and destination format `<hex> - <name>` (R166, R167). -/
def hexAndName (pr : Presentation) (r : Regs) : Text :=
  pr.hexfmt (lowByte r.res) ++ [' ', '-', ' '] ++ pr.name r.label

/-- The new-code format: the two-character code in single quotes, then the name (R166). -/
def codeAndName (pr : Presentation) (r : Regs) : Text :=
  ['\''] ++ pr.text (r.bytes 2) r.rmask 0 ++ ['\''] ++ [' ', '-', ' '] ++ pr.name r.label

/-- The report of a command from the result registers (R163 to R171). -/
def reportText (pr : Presentation) (i : Instr) (r : Regs) : Text :=
  match i with
  | .cgb | .sgb | .maskver => pr.hexfmt (lowByte r.res)
  | .publisher => if r.status.newPub then codeAndName pr r else hexAndName pr r
  | .dest => hexAndName pr r
  | .cart | .romsz | .ramsz => pr.name r.label
  | .title => pr.text (trim (r.bytes 16)) r.rmask 0
  | .manuf =>
    if r.status.na then ['n', 'o', 't', ' ', 'a', 'p', 'p', 'l', 'i', 'c', 'a', 'b', 'l', 'e']
    else pr.text (r.bytes 4) r.rmask 0
  | .logoChk | .hdrChk | .glbChk => verdictText r.status.pass
  | .logoRender => List.intercalate ['\n'] ((List.range 8).map (gridLine pr r))

/-- `Report(op, regs)`, "defined only when `DONE = 1` and `FAULT = 0`" (R160). -/
def report (pr : Presentation) (i : Instr) (r : Regs) : Option Text :=
  if r.status.done && !r.status.fault then some (reportText pr i r) else none

end Sys2Proof.Machine
end

