-- ==== Sys2Proof/Machine/Sequence.lean ====
section
/-! DEFINITION. Command sequences: the host's loop, the pseudo-commands and the textual form (spec/30_encoding.md R68
to R70). -/

namespace Sys2Proof.Machine

/-- The expansion of a pseudo-command (R70). -/
def expansion : Pseudo → List Instr
  | .minimal => [.title, .logoChk]
  | .verify => [.logoChk, .hdrChk, .glbChk]
  | .full =>
    [.logoChk, .title, .manuf, .cgb, .sgb, .publisher, .cart, .romsz, .ramsz, .dest, .maskver, .hdrChk, .glbChk]

/-- The registers the host's loop reads. R68 says "read the result registers" and names neither the set nor the order:
the model reads every register of R10 but `OP`, in the order of their numbers (DESIGN CHOICE, log entry 26). -/
def resultRegs : List Reg :=
  [.status, .res, .tgt, .acc8, .sum16, .addr, .rlen, .rmask, .label] ++ (List.finRange 48).map .rbuf

/-- The host's loop over a sequence of command bytes: "for each byte, wait until `BUSY = 0`, `Issue(byte)`, wait until
`DONE = 1`, read the result registers" (R68). -/
def hostLoop : List Byte → List Turn
  | [] => []
  | c :: cs => .awaitIdle :: .issue c :: .awaitDone :: (resultRegs.map .read ++ hostLoop cs)

/-- The mnemonic of a command (R62). -/
def mnemonic : Instr → Text
  | .logoChk => ['L', 'O', 'G', 'O', '_', 'C', 'H', 'K']
  | .title => ['T', 'I', 'T', 'L', 'E']
  | .manuf => ['M', 'A', 'N', 'U', 'F']
  | .cgb => ['C', 'G', 'B']
  | .sgb => ['S', 'G', 'B']
  | .publisher => ['P', 'U', 'B', 'L', 'I', 'S', 'H', 'E', 'R']
  | .cart => ['C', 'A', 'R', 'T']
  | .romsz => ['R', 'O', 'M', 'S', 'Z']
  | .ramsz => ['R', 'A', 'M', 'S', 'Z']
  | .dest => ['D', 'E', 'S', 'T']
  | .maskver => ['M', 'A', 'S', 'K', 'V', 'E', 'R']
  | .hdrChk => ['H', 'D', 'R', '_', 'C', 'H', 'K']
  | .glbChk => ['G', 'L', 'B', '_', 'C', 'H', 'K']
  | .logoRender => ['L', 'O', 'G', 'O', '_', 'R', 'E', 'N', 'D', 'E', 'R']

/-- The name of a pseudo-command (R70). -/
def pseudoName : Pseudo → Text
  | .minimal => ['M', 'I', 'N', 'I', 'M', 'A', 'L']
  | .verify => ['V', 'E', 'R', 'I', 'F', 'Y']
  | .full => ['F', 'U', 'L', 'L']

/-- The opcode bytes each word of the command language stands for. -/
def vocabulary : List (Text × List Byte) :=
  (opcodeTable.map fun row => (mnemonic row.2, encode row.2))
    ++ [Pseudo.minimal, .verify, .full].map fun p => (pseudoName p, assemble (expansion p))

/-- The lines of a source text. R68 says "one mnemonic per line" and not which character ends a line: the model takes the
single character '\n' (DESIGN CHOICE, log entry 18). -/
def splitLines : Text → List Text
  | [] => [[]]
  | c :: cs =>
    if c = '\n' then [] :: splitLines cs
    else
      match splitLines cs with
      | [] => [[c]]
      | l :: ls => (c :: l) :: ls

/-- Whether a character separates words. -/
def isBlank (c : Char) : Bool := c == ' ' || c == '\t'

/-- A line without its comment, which `;` starts, and without blanks around it (R68). -/
def lineWord (l : Text) : Text :=
  (((l.takeWhile (· != ';')).dropWhile isBlank).reverse.dropWhile isBlank).reverse

/-- The bytes of one line: none for an empty one, else those of its word; no operands (R68). -/
def assembleLine (l : Text) : Option (List Byte) :=
  match lineWord l with
  | [] => some []
  | w => List.lookup w vocabulary

/-- The bytes of the lines in order. -/
def assembleLines : List Text → Option (List Byte)
  | [] => some []
  | l :: ls =>
    match assembleLine l, assembleLines ls with
    | some bs, some rest => some (bs ++ rest)
    | _, _ => none

/-- The assembled form of a source text (R68), or none where a line is no command. -/
def assembleText (src : Text) : Option (List Byte) := assembleLines (splitLines src)

/-- A sequence written "one mnemonic per line" (R68). -/
def sourceText (is : List Instr) : Text := is.flatMap fun i => mnemonic i ++ ['\n']

end Sys2Proof.Machine
end

