-- ==== Sys2Proof/Safety.lean ====
section
/-! DEFINITION. The terms in which claims are stated: when results may be used, the invariant of every reachable state
(spec/10_state.md R14, R22; spec/44_header_checksum.md R135; spec/45_global_checksum.md R147), the number of Exec steps
(spec/70_reset_and_hazards.md R209), the read set (spec/20_memory.md R56), and the run of one command (R211). -/

namespace Sys2Proof.Machine

/-- When the result registers may be used: `DONE = 1` and `FAULT = 0` (R206, U5). -/
def ResultsValid (r : Regs) : Prop := r.status.done = true ∧ r.status.fault = false

/-! ## Sums over the image -/

/-- The integer sum of a list of bytes. -/
def byteSum (bs : List Byte) : Nat := (bs.map BitVec.toNat).sum

/-- The bytes `M[a], ..., M[a+n-1]` of an image. -/
def Memory.bytes (m : Memory) (a n : Nat) : List Byte := (List.range n).map fun i => m.byte (a + i)

/-- `(-(M[0x0134] + ... + M[0x0134 + k - 1]) - k) mod 256` (R135). -/
def hdrAccAfter (m : Memory) (k : Nat) : Byte := BitVec.ofInt 8 (-(byteSum (m.bytes 0x0134 k) : Int) - k)

/-- The bytes the global sum takes from the first `k` addresses (R147, R149). -/
def summedBytes (m : Memory) (k : Nat) : List Byte :=
  ((List.range k).filter fun a => a != 0x014E && a != 0x014F).map m.byte

/-- `(sum of M[a] for a < k, a not in {0x014E, 0x014F}) mod 65536` (R147). -/
def glbSumAfter (m : Memory) (k : Nat) : Half := BitVec.ofNat 16 (byteSum (summedBytes m k))

/-! ## The invariant -/

/-- `STATUS` in every reachable state (R14). -/
structure StatusOk (r : Regs) : Prop where
  busy_not_done : r.status.busy = true → r.status.done = false
  fault_done : r.status.fault = true → r.status.done = true ∧ r.status.fcode ≠ .none
  no_fault_no_code : r.status.fault = false → r.status.fcode = .none
  degr_iff_mask : r.status.degr = true ↔ r.rmask ≠ 0
  unk_unknown : r.status.unk = true → r.label = .unknown

/-- What the sequencer has reached in a command in progress: `ADDR` and the running accumulator (R16, R17, R135,
R147); the other accumulator is clear (R12). -/
def Progress (i : Instr) (m : Memory) (r : Regs) : Prop :=
  match i with
  | .hdrChk =>
    0x0134 ≤ r.addr ∧ r.addr ≤ 0x014D ∧ r.acc8 = hdrAccAfter m (r.addr - 0x0134) ∧ r.sum16 = 0
  | .glbChk => r.addr ≤ m.len ∧ r.sum16 = glbSumAfter m r.addr ∧ r.acc8 = 0
  | .logoChk | .title | .manuf | .cgb | .sgb | .publisher | .cart | .romsz | .ramsz | .dest | .maskver
  | .logoRender => r.addr = 0 ∧ r.acc8 = 0 ∧ r.sum16 = 0

/-- The registers that read as cleared while `BUSY = 1` (R22, R206): all but `OP`, the running ones and `BUSY`. -/
def ResultsCleared (r : Regs) : Prop :=
  r = { Regs.cleared r.op with
        status := { Status.zero with busy := true }, acc8 := r.acc8, sum16 := r.sum16, addr := r.addr }

/-- A command is in progress on an image that is long enough (R19, R188, R201). -/
structure Running (s : State) (i : Instr) : Prop where
  op_eq : s.regs.op = opcode i
  long : 0x0150 ≤ s.inp.image.len
  cleared : ResultsCleared s.regs
  progress : Progress i s.inp.image s.regs

/-- The invariant of every reachable state. -/
structure Inv (s : State) : Prop where
  par_ok : s.par.wf = true
  inp_ok : s.inp.wf s.par = true
  status_ok : StatusOk s.regs
  running : s.regs.status.busy = true → ∃ i, Running s i
  faulted : s.regs.status.fault = true →
    s.regs = { Regs.cleared s.regs.op with
               status := { Status.zero with done := true, fault := true, fcode := s.regs.status.fcode } }
  fresh : s.regs.status.busy = false → s.regs.status.done = false → s.regs = Regs.cleared 0
  addr_fits : s.regs.addr < 2 ^ s.par.aw
  rlen_le : s.regs.rlen.toNat ≤ 48

/-! ## Runs of one command -/

/-- The number of Exec steps of an issue (R209). -/
def execSteps (c : Byte) (x : Inputs) : Nat :=
  match decodeByte c with
  | .error _ => 0
  | .ok i =>
    if x.image.len < 0x0150 then 0
    else
      match i with
      | .hdrChk => 26
      | .glbChk => x.image.len + 1
      | .logoChk | .title | .manuf | .cgb | .sgb | .publisher | .cart | .romsz | .ramsz | .dest | .maskver
      | .logoRender => 1

/-- `s` with its two agents about to take these turns: the host's `Issue(c)`, then `n` of the block, then `ts`. -/
def State.issuing (s : State) (c : Byte) (n : Nat) (ts : List Turn) : State :=
  { s with script := .issue c :: (List.replicate n .exec ++ ts) }

/-- `Issue(c)` and `n` Exec steps from `s` leave the registers `r`, and nothing else changes. -/
def Runs (s : State) (c : Byte) (n : Nat) (r : Regs) : Prop :=
  ∀ ts, Host.Core.run Sys2Proof.core (n + 1) (s.issuing c n ts) = .next { s with script := ts, regs := r }

/-- After `Issue(c)` on an image shorter than 0x150 bytes, every command has faulted with `InputTooShort` and nothing
else has changed (R183, R185). -/
def FaultsOnShortImage (c : Byte) : Prop :=
  ∀ s, s.regs.status.busy = false → s.inp.image.len < 0x0150 →
    Runs s c 0
      { Regs.cleared c with
        status := { Status.zero with done := true, fault := true, fcode := .inputTooShort } }

/-! ## Read sets -/

/-- The image addresses a command reads (R56). -/
def readSet (i : Instr) (m : Memory) (a : Nat) : Prop :=
  match i with
  | .logoChk | .logoRender => 0x0104 ≤ a ∧ a ≤ 0x0133
  | .title => 0x0134 ≤ a ∧ a ≤ 0x0143
  | .manuf => 0x013F ≤ a ∧ a ≤ 0x0142
  | .cgb => a = 0x0143
  | .sgb => a = 0x0146
  | .publisher => a = 0x014B ∨ (m.byte 0x014B = 0x33 ∧ (a = 0x0144 ∨ a = 0x0145))
  | .cart => a = 0x0147
  | .romsz => a = 0x0148
  | .ramsz => a = 0x0149
  | .dest => a = 0x014A
  | .maskver => a = 0x014C
  | .hdrChk => 0x0134 ≤ a ∧ a ≤ 0x014D
  | .glbChk => a < m.len

end Sys2Proof.Machine
end

