-- ==== Sys2Proof/Certificates/Slice0/Obligations.lean ====
section
/-! DEFINITION. The statements for the provers, from the numbered rules of spec/. Addresses, opcodes and flag
positions are written out as numbers here, independently of the model's own tables. -/

open Sys2Proof Sys2Proof.Machine

/-! ## Encoding -/

/-- R62: the words of the opcode map, each written out, decode to their commands. -/
def Obligations.WrittenWordsDecode : Prop :=
  decodeByte 0b00000001 = .ok .logoChk ∧ decodeByte 0b00000010 = .ok .title ∧ decodeByte 0b00000011 = .ok .manuf ∧
  decodeByte 0b00000100 = .ok .cgb ∧ decodeByte 0b00000101 = .ok .sgb ∧ decodeByte 0b00000110 = .ok .publisher ∧
  decodeByte 0b00000111 = .ok .cart ∧ decodeByte 0b00001000 = .ok .romsz ∧ decodeByte 0b00001001 = .ok .ramsz ∧
  decodeByte 0b00001010 = .ok .dest ∧ decodeByte 0b00001011 = .ok .maskver ∧ decodeByte 0b00001100 = .ok .hdrChk ∧
  decodeByte 0b00001101 = .ok .glbChk ∧ decodeByte 0b00001110 = .ok .logoRender

/-- R63: a word from 0x01 to 0x0E is the command whose opcode it is, every other word is illegal. -/
def Obligations.DecodingIsTotal : Prop :=
  ∀ c : Byte,
    (1 ≤ c.toNat ∧ c.toNat ≤ 14 → ∃ i, decodeByte c = .ok i ∧ opcode i = c) ∧
    (¬(1 ≤ c.toNat ∧ c.toNat ≤ 14) → decodeByte c = .error (.illegalCommand c))

/-- Decode and encode agree on byte sequences: bytes decode to a command at their head exactly when they are its
encoding followed by the rest, and a whole sequence of commands and its assembled form determine each other. -/
def Obligations.DecodeAndEncodeAgree : Prop :=
  (∀ bs i rest, decodeBytes bs = .ok (i, rest) ↔ bs = encode i ++ rest) ∧
  ∀ bs is, disassemble bs = .ok is ↔ bs = assemble is

/-- R68: a command sequence written one mnemonic a line, each line with or without a comment after it, assembles to
the list of opcode bytes in order. That '\n' ends a line, and that a blank may stand before the comment, is the model's
choice (log entry 18). -/
def Obligations.SourceTextAssembles : Prop :=
  ∀ lines : List (Instr × Option Text),
    (∀ l ∈ lines, ∀ comment, l.2 = some comment → '\n' ∉ comment) →
    assembleText
        (lines.flatMap fun l =>
          mnemonic l.1 ++ (match l.2 with | none => [] | some comment => ' ' :: ';' :: comment) ++ ['\n']) =
      some (lines.map fun l => opcode l.1)

/-- R70: the pseudo-commands expand to these opcode bytes. That their names may stand in a source text (the last two
clauses) is the model's choice (log entry 18). -/
def Obligations.PseudoCommandsExpand : Prop :=
  assemble (expansion .minimal) = [0x02, 0x01] ∧
  assemble (expansion .verify) = [0x01, 0x0C, 0x0D] ∧
  assemble (expansion .full) = [0x01, 0x02, 0x03, 0x04, 0x05, 0x06, 0x07, 0x08, 0x09, 0x0A, 0x0B, 0x0C, 0x0D] ∧
  assembleText ['M', 'I', 'N', 'I', 'M', 'A', 'L'] = some [0x02, 0x01] ∧
  assembleText ['V', 'E', 'R', 'I', 'F', 'Y'] = some [0x01, 0x0C, 0x0D]

/-! ## The agents and their turns -/

/-- A step runs the decoded command: while `BUSY = 1` and `OP` decodes to `i`, the block's turn is `exec i`; the turn
is taken from the script where it stands there, and a waiting host leaves the script as it is. That the block acts on an
empty script, on an explicit `exec` turn and while the host waits are the model's turns (log entry 1). -/
def Obligations.StepRunsTheCommandInProgress : Prop :=
  ∀ (s : State) (i : Instr) (rest : List Byte),
    s.regs.status.busy = true → decodeBytes (commandBytes s) = .ok (i, rest) →
    (s.script = [] → step s = exec i s) ∧
    (∀ ts, s.script = .exec :: ts → step s = exec i { s with script := ts }) ∧
    (∀ ts, s.script = .awaitIdle :: ts → step s = exec i s) ∧
    (∀ ts, s.script = .awaitDone :: ts → s.regs.status.done = false → step s = exec i s)

/-- The model's turns (log entry 1) of an idle block and of a host that has waited long enough: only the script
moves. -/
def Obligations.IdleTurnsChangeOnlyTheScript : Prop :=
  ∀ (s : State) (ts : List Turn),
    (s.regs.status.busy = false → s.script = [] → step s = .next s) ∧
    (s.regs.status.busy = false → s.script = .exec :: ts → step s = .next { s with script := ts }) ∧
    (s.regs.status.busy = false → s.script = .awaitIdle :: ts → step s = .next { s with script := ts }) ∧
    (s.regs.status.done = true → s.script = .awaitDone :: ts → step s = .next { s with script := ts }) ∧
    (s.regs.status.busy = false → s.regs.status.done = false → s.script = .awaitDone :: ts → step s = .next s)

/-- R19 and R20: `Issue(c)` in each of its four cases, every register of the clear written out. -/
def Obligations.IssueInEveryCase : Prop :=
  ∀ (s : State) (c : Byte) (ts : List Turn), s.script = .issue c :: ts →
    let after (st : Status) (addr : Nat) : Host.Outcome State Fault Refusal :=
      .next
        { s with
          script := ts
          regs :=
            { op := c, status := st, res := 0, tgt := 0, acc8 := 0, sum16 := 0, addr := addr, rlen := 0, rmask := 0,
              label := .unknown, rbuf := Vector.replicate 48 0 } }
    let idle : Status :=
      { busy := false, done := false, pass := false, unk := false, na := false, newPub := false, degr := false,
        fault := false, fcode := .none }
    (s.regs.status.busy = true → step s = .next { s with script := ts }) ∧
    (s.regs.status.busy = false →
      (¬(1 ≤ c.toNat ∧ c.toNat ≤ 14) →
        step s = after { idle with fault := true, fcode := .illegalCommand, done := true } 0) ∧
      (1 ≤ c.toNat ∧ c.toNat ≤ 14 → s.inp.image.len < 0x0150 →
        step s = after { idle with fault := true, fcode := .inputTooShort, done := true } 0) ∧
      (1 ≤ c.toNat ∧ c.toNat ≤ 14 → 0x0150 ≤ s.inp.image.len →
        step s = after { idle with busy := true } (if c = 0x0C then 0x0134 else 0)))

/-- R182, R183, R186: which fault an issue on an idle block records, as the `STATUS` word, `OP` and the absence of
further Exec steps; an illegal word wins over a short image. -/
def Obligations.FaultsOfAnIssue : Prop :=
  ∀ (s : State) (c : Byte) (ts : List Turn), s.regs.status.busy = false → s.script = .issue c :: ts →
    (c = 0x00 ∨ 0x0F ≤ c.toNat →
      ∃ t, step s = .next t ∧ t.regs.status.word = 0x0182 ∧ t.regs.op = c ∧ t.regs.status.busy = false) ∧
    (¬(c = 0x00 ∨ 0x0F ≤ c.toNat) → s.inp.image.len < 0x0150 →
      ∃ t, step s = .next t ∧ t.regs.status.word = 0x0282 ∧ t.regs.op = c ∧ t.regs.status.busy = false) ∧
    (¬(c = 0x00 ∨ 0x0F ≤ c.toNat) → 0x0150 ≤ s.inp.image.len →
      ∃ t, step s = .next t ∧ t.regs.status.word = 0x0001 ∧ t.regs.op = c)

/-- R23 and R200: `Reset` in every state, a running command included, and the state after it; the parameters stay. -/
def Obligations.ResetFromEveryState : Prop :=
  let zeroed : Regs :=
    { op := 0
      status :=
        { busy := false, done := false, pass := false, unk := false, na := false, newPub := false, degr := false,
          fault := false, fcode := .none }
      res := 0, tgt := 0, acc8 := 0, sum16 := 0, addr := 0, rlen := 0, rmask := 0, label := .unknown,
      rbuf := Vector.replicate 48 0 }
  State.reset.regs = zeroed ∧
  ∀ (s : State) (ts : List Turn), s.script = .reset :: ts → step s = .next { s with script := ts, regs := zeroed }

/-- R22: a read returns the current value of the register and changes nothing of the block; while `BUSY = 1`, in a
state that meets the invariant, every result register but `ACC8`, `SUM16`, `ADDR` reads as cleared. -/
def Obligations.ReadsReturnRegisters : Prop :=
  (∀ (s : State) (r : Reg) (ts : List Turn), s.script = .read r :: ts →
    ∃ v, step s = .next { s with script := ts, lastRead := some (r, v) } ∧
      v =
        match r with
        | .op => .num s.regs.op.toNat
        | .status => .num s.regs.status.word.toNat
        | .res => .num s.regs.res.toNat
        | .tgt => .num s.regs.tgt.toNat
        | .acc8 => .num s.regs.acc8.toNat
        | .sum16 => .num s.regs.sum16.toNat
        | .addr => .num s.regs.addr
        | .rlen => .num s.regs.rlen.toNat
        | .rmask => .num s.regs.rmask.toNat
        | .label => .label s.regs.label
        | .rbuf i => .num s.regs.rbuf[i].toNat) ∧
  ∀ (s t : State) (r : Reg) (ts : List Turn), Inv s → s.regs.status.busy = true → s.script = .read r :: ts →
    step s = .next t →
    match r with
    | .op | .acc8 | .sum16 | .addr => True
    | .status => t.lastRead = some (r, .num 1)
    | .label => t.lastRead = some (r, .label .unknown)
    | .res | .tgt | .rlen | .rmask | .rbuf _ => t.lastRead = some (r, .num 0)

/-- R10: the numbers of the registers; 10 to 15 and 64 on number none. -/
def Obligations.RegisterNumbers : Prop :=
  [Reg.op, .status, .res, .tgt, .acc8, .sum16, .addr, .rlen, .rmask, .label].map Reg.number = List.range 10 ∧
  (∀ i : Fin 48, (Reg.rbuf i).number = 16 + i.val) ∧
  ∀ n r, Reg.ofNumber n = some r ↔ r.number = n

/-- The places of the fields in the `STATUS` word (R13's column of bits); bits 15:10 read as zero. -/
def Obligations.StatusWordLayout : Prop :=
  ∀ st : Status,
    st.word.getLsbD 0 = st.busy ∧ st.word.getLsbD 1 = st.done ∧ st.word.getLsbD 2 = st.pass ∧
    st.word.getLsbD 3 = st.unk ∧ st.word.getLsbD 4 = st.na ∧ st.word.getLsbD 5 = st.newPub ∧
    st.word.getLsbD 6 = st.degr ∧ st.word.getLsbD 7 = st.fault ∧
    (st.word.extractLsb' 8 2).toNat =
      (match st.fcode with | .none => 0 | .illegalCommand => 1 | .inputTooShort => 2) ∧
    st.word.extractLsb' 10 6 = 0

/-- R13's column "set by", for every field of `STATUS`: a verdict or condition flag that a step raises is raised by an
Exec step of one of its own commands; `FAULT` and `BUSY` are raised by an issue; `BUSY` falls only at completion or a
reset; `DONE` is raised only by a completing Exec step or a faulting issue, and falls only at an accepted issue or a
reset; `FCODE` changes only at an accepted issue, or to 0 at a reset. -/
def Obligations.FlagsAreRaisedOnlyByTheirCommands : Prop :=
  ∀ s t : State, Inv s → step s = .next t →
    (t.regs.status.pass = true → s.regs.status.pass = false →
      s.regs.status.busy = true ∧ s.regs.op ∈ ([0x01, 0x0C, 0x0D] : List Byte)) ∧
    (t.regs.status.unk = true → s.regs.status.unk = false →
      s.regs.status.busy = true ∧ s.regs.op ∈ ([0x06, 0x07, 0x08, 0x09, 0x0A] : List Byte)) ∧
    (t.regs.status.na = true → s.regs.status.na = false →
      s.regs.status.busy = true ∧ s.regs.op = 0x03) ∧
    (t.regs.status.newPub = true → s.regs.status.newPub = false →
      s.regs.status.busy = true ∧ s.regs.op = 0x06) ∧
    (t.regs.status.degr = true → s.regs.status.degr = false →
      s.regs.status.busy = true ∧ s.regs.op ∈ ([0x02, 0x03, 0x06] : List Byte)) ∧
    (t.regs.status.fault = true → s.regs.status.fault = false → ∃ c ts, s.script = .issue c :: ts) ∧
    (t.regs.status.busy = true → s.regs.status.busy = false → ∃ c ts, s.script = .issue c :: ts) ∧
    (t.regs.status.done = false → s.regs.status.done = true →
      s.regs.status.busy = false ∧ ((∃ c ts, s.script = .issue c :: ts) ∨ ∃ ts, s.script = .reset :: ts)) ∧
    (t.regs.status.busy = false → s.regs.status.busy = true →
      t.regs.status.done = true ∨ ∃ ts, s.script = .reset :: ts) ∧
    (t.regs.status.done = true → s.regs.status.done = false →
      (s.regs.status.busy = true ∧ t.regs.status.busy = false ∧ t.regs.status.fault = false) ∨
      (s.regs.status.busy = false ∧ t.regs.status.fault = true ∧ ∃ c ts, s.script = .issue c :: ts)) ∧
    (t.regs.status.fcode ≠ s.regs.status.fcode →
      s.regs.status.busy = false ∧
        ((∃ c ts, s.script = .issue c :: ts) ∨ (t.regs.status.fcode = .none ∧ ∃ ts, s.script = .reset :: ts)))

/-- R42: no step of the block, and no host action of R18, changes an image byte, a table or the reference logo; the fixed
parameters never change. That the host has a turn of its own to present inputs, which changes no register (the last
clause), is the model's (log entry 13, DEDUCED). -/
def Obligations.BlockWritesOnlyItsRegisters : Prop :=
  ∀ s t : State, step s = .next t →
    t.par = s.par ∧
    ((∀ x ts, s.script ≠ .present x :: ts) → t.inp = s.inp ∧ ∀ a, t.inp.image.read a = s.inp.image.read a) ∧
    (∀ x ts, s.script = .present x :: ts → t.inp = x ∧ t.regs = s.regs ∧ t.script = ts)

/-- R12: in every state, `ACC8` is changed only by `HDR_CHK` steps and by the clear of an accepted issue or a reset,
`SUM16` only by `GLB_CHK` steps and by the same clear. -/
def Obligations.AccumulatorsHaveOneWriterEach : Prop :=
  ∀ s t : State, step s = .next t →
    (t.regs.acc8 ≠ s.regs.acc8 →
      (s.regs.status.busy = true ∧ s.regs.op = 0x0C) ∨
      (t.regs.acc8 = 0 ∧ ((∃ c ts, s.script = .issue c :: ts ∧ s.regs.status.busy = false) ∨ ∃ ts, s.script = .reset :: ts))) ∧
    (t.regs.sum16 ≠ s.regs.sum16 →
      (s.regs.status.busy = true ∧ s.regs.op = 0x0D) ∨
      (t.regs.sum16 = 0 ∧ ((∃ c ts, s.script = .issue c :: ts ∧ s.regs.status.busy = false) ∨ ∃ ts, s.script = .reset :: ts)))

/-- U1 (93_implementation_defined.md) and R205: presenting other inputs during a command has no meaning; between
commands, inputs within R6's constraints (and in canonical form, log entry 3) take the place of the old ones and no
register changes. -/
def Obligations.PresentingInputs : Prop :=
  ∀ (s : State) (x : Inputs) (ts : List Turn), s.script = .present x :: ts →
    (s.regs.status.busy = true → x ≠ s.inp → step s = .refused .inputsChangedWhileBusy) ∧
    (s.regs.status.busy = false → x.wf s.par = true → step s = .next { s with script := ts, inp := x }) ∧
    (s.regs.status.busy = false → x.wf s.par = false → step s = .refused .inputsOutsideConstraints)

/-! ## The commands, one Exec step on any long enough image, and the run of one issue -/

/-- R80 to R83: the raw commands return one byte unchanged; everything else is as issue left it. -/
def Obligations.RawFieldCommands : Prop :=
  ∀ (i : Instr) (c : Byte) (a : Nat),
    (i, c, a) ∈ [(Instr.cgb, (0x04 : Byte), 0x0143), (.sgb, 0x05, 0x0146), (.maskver, 0x0B, 0x014C)] →
    (∀ s : State, 0x0150 ≤ s.inp.image.len →
      exec i s =
        .next
          { s with
            regs :=
              { s.regs with
                res := BitVec.ofNat 16 (s.inp.image.byte a).toNat
                status := { s.regs.status with busy := false, done := true } } }) ∧
    (∀ s : State, s.regs.status.busy = false → 0x0150 ≤ s.inp.image.len →
      Runs s c 1
        { Regs.cleared c with
          res := BitVec.ofNat 16 (s.inp.image.byte a).toNat
          status := { Status.zero with done := true } }) ∧
    FaultsOnShortImage c

/-- R90: `TITLE`. -/
def Obligations.TitleCommand : Prop :=
  let text (s : State) : Vector Byte 48 :=
    Vector.ofFn fun i : Fin 48 => if i.val < 16 then s.inp.image.byte (0x0134 + i) else s.regs.rbuf[i]
  let mask (s : State) : Half :=
    BitVec.ofFnLE fun i : Fin 16 => !s.par.decodable.getLsbD (s.inp.image.byte (0x0134 + i)).toNat
  (∀ s : State, 0x0150 ≤ s.inp.image.len →
    exec .title s =
      .next
        { s with
          regs :=
            { s.regs with
              rbuf := text s
              rlen := 16
              rmask := mask s
              status := { s.regs.status with degr := mask s != 0, busy := false, done := true } } }) ∧
  (∀ s : State, s.regs.status.busy = false → 0x0150 ≤ s.inp.image.len →
    Runs s 0x02 1
      { Regs.cleared 0x02 with
        rbuf := Vector.ofFn fun i : Fin 48 => if i.val < 16 then s.inp.image.byte (0x0134 + i) else 0
        rlen := 16
        rmask := mask s
        status := { Status.zero with degr := mask s != 0, done := true } }) ∧
  FaultsOnShortImage 0x02

/-- R92: `MANUF`; with all four bytes zero it is "not applicable" and the mask is not written. -/
def Obligations.ManufacturerCommand : Prop :=
  let na (s : State) : Bool := decide (∀ i : Fin 4, s.inp.image.byte (0x013F + i) = 0)
  let mask (s : State) (old : Half) : Half :=
    BitVec.ofFnLE fun i : Fin 16 =>
      if i.val < 4 then !s.par.decodable.getLsbD (s.inp.image.byte (0x013F + i)).toNat else old.getLsbD i
  (∀ s : State, 0x0150 ≤ s.inp.image.len →
    exec .manuf s =
      .next
        { s with
          regs :=
            { s.regs with
              rbuf := Vector.ofFn fun i : Fin 48 =>
                if i.val < 4 then s.inp.image.byte (0x013F + i) else s.regs.rbuf[i]
              rlen := 4
              rmask := if na s then s.regs.rmask else mask s s.regs.rmask
              status :=
                { s.regs.status with
                  na := if na s then true else s.regs.status.na
                  degr := if na s then s.regs.status.degr else mask s s.regs.rmask != 0
                  busy := false
                  done := true } } }) ∧
  (∀ s : State, s.regs.status.busy = false → 0x0150 ≤ s.inp.image.len →
    Runs s 0x03 1
      { Regs.cleared 0x03 with
        rbuf := Vector.ofFn fun i : Fin 48 => if i.val < 4 then s.inp.image.byte (0x013F + i) else 0
        rlen := 4
        rmask := if na s then 0 else mask s 0
        status := { Status.zero with na := na s, degr := !na s && mask s 0 != 0, done := true } }) ∧
  FaultsOnShortImage 0x03

/-- R100, R103 to R106: the four lookup commands with one table, hit and miss. -/
def Obligations.ByteLookupCommands : Prop :=
  ∀ (i : Instr) (c : Byte) (a : Nat) (table : Inputs → Table Byte),
    (i = .cart ∧ c = 0x07 ∧ a = 0x0147 ∧ table = Inputs.tCart) ∨
    (i = .romsz ∧ c = 0x08 ∧ a = 0x0148 ∧ table = Inputs.tRomSz) ∨
    (i = .ramsz ∧ c = 0x09 ∧ a = 0x0149 ∧ table = Inputs.tRamSz) ∨
    (i = .dest ∧ c = 0x0A ∧ a = 0x014A ∧ table = Inputs.tDest) →
    let found (s : State) : Option Text := (table s.inp).lookup (s.inp.image.byte a)
    let label (s : State) : Label := match found s with | some l => .named l | none => .unknown
    (∀ s : State, 0x0150 ≤ s.inp.image.len →
      exec i s =
        .next
          { s with
            regs :=
              { s.regs with
                res := BitVec.ofNat 16 (s.inp.image.byte a).toNat
                label := label s
                status := { s.regs.status with unk := (found s).isNone, busy := false, done := true } } }) ∧
    (∀ s : State, s.regs.status.busy = false → 0x0150 ≤ s.inp.image.len →
      Runs s c 1
        { Regs.cleared c with
          res := BitVec.ofNat 16 (s.inp.image.byte a).toNat
          label := label s
          status := { Status.zero with unk := (found s).isNone, done := true } }) ∧
    FaultsOnShortImage c

/-- R101, R102: `PUBLISHER` on its two branches; the new table is consulted only when both bytes are decodable. The
mask is that of the run from the cleared state, as in the rule; the Exec step on any state keeps the other mask
bits. -/
def Obligations.PublisherCommand : Prop :=
  let b0 (s : State) : Byte := s.inp.image.byte 0x0144
  let b1 (s : State) : Byte := s.inp.image.byte 0x0145
  let old (s : State) : Byte := s.inp.image.byte 0x014B
  let mask (s : State) (m : Half) : Half :=
    BitVec.ofFnLE fun i : Fin 16 =>
      if i.val = 0 then !s.par.decodable.getLsbD (b0 s).toNat
      else if i.val = 1 then !s.par.decodable.getLsbD (b1 s).toNat
      else m.getLsbD i
  let found (s : State) (m : Half) : Option Text :=
    if old s = 0x33 then (if mask s m = 0 then s.inp.tNewPub.lookup (b0 s, b1 s) else none)
    else s.inp.tOldPub.lookup (old s)
  let label (s : State) (m : Half) : Label := match found s m with | some l => .named l | none => .unknown
  (∀ s : State, 0x0150 ≤ s.inp.image.len → old s = 0x33 →
    exec .publisher s =
      .next
        { s with
          regs :=
            { s.regs with
              rbuf := (s.regs.rbuf.set 0 (b0 s)).set 1 (b1 s)
              rlen := 2
              rmask := mask s s.regs.rmask
              res := BitVec.ofNat 16 ((b0 s).toNat * 256 + (b1 s).toNat)
              label := label s s.regs.rmask
              status :=
                { s.regs.status with
                  newPub := true
                  degr := mask s s.regs.rmask != 0
                  unk := (found s s.regs.rmask).isNone
                  busy := false
                  done := true } } }) ∧
  (∀ s : State, 0x0150 ≤ s.inp.image.len → old s ≠ 0x33 →
    exec .publisher s =
      .next
        { s with
          regs :=
            { s.regs with
              res := BitVec.ofNat 16 (old s).toNat
              label := label s 0
              status :=
                { s.regs.status with
                  newPub := false, unk := (found s 0).isNone, busy := false, done := true } } }) ∧
  (∀ s : State, s.regs.status.busy = false → 0x0150 ≤ s.inp.image.len →
    Runs s 0x06 1
      (if old s = 0x33 then
        { Regs.cleared 0x06 with
          rbuf := ((Vector.replicate 48 0).set 0 (b0 s)).set 1 (b1 s)
          rlen := 2
          rmask := mask s 0
          res := BitVec.ofNat 16 ((b0 s).toNat * 256 + (b1 s).toNat)
          label := label s 0
          status :=
            { Status.zero with
              newPub := true, degr := mask s 0 != 0, unk := (found s 0).isNone, done := true } }
      else
        { Regs.cleared 0x06 with
          res := BitVec.ofNat 16 (old s).toNat
          label := label s 0
          status := { Status.zero with unk := (found s 0).isNone, done := true } })) ∧
  FaultsOnShortImage 0x06

/-- R115: `LOGO_CHK`. -/
def Obligations.LogoCheckCommand : Prop :=
  let raw (s : State) : Vector Byte 48 := Vector.ofFn fun i : Fin 48 => s.inp.image.byte (0x0104 + i)
  let same (s : State) : Bool := decide (∀ i : Fin 48, s.inp.image.byte (0x0104 + i) = s.inp.refLogo[i])
  (∀ s : State, 0x0150 ≤ s.inp.image.len →
    exec .logoChk s =
      .next
        { s with
          regs :=
            { s.regs with
              rbuf := raw s
              rlen := 48
              status := { s.regs.status with pass := same s, busy := false, done := true } } }) ∧
  (∀ s : State, s.regs.status.busy = false → 0x0150 ≤ s.inp.image.len →
    Runs s 0x01 1
      { Regs.cleared 0x01 with
        rbuf := raw s, rlen := 48, status := { Status.zero with pass := same s, done := true } }) ∧
  FaultsOnShortImage 0x01

/-- R120, R121: `LOGO_RENDER`; `RBUF[6*(4*h + r) + k]` is the pair of nibbles `2k`, `2k+1` of row `r` of block `h`. -/
def Obligations.LogoRenderCommand : Prop :=
  let nib (s : State) (h r c : Nat) : Nat :=
    let b := (s.inp.image.byte (0x0104 + 24 * h + 2 * c + r / 2)).toNat
    if r % 2 = 0 then b / 16 else b % 16
  let grid (s : State) (g : Vector Byte 48) : Prop :=
    ∀ (h : Fin 2) (r : Fin 4) (k : Fin 6),
      (g[6 * (4 * h.val + r.val) + k.val]'(by omega)).toNat =
        nib s h r (2 * k) * 16 + nib s h r (2 * k + 1)
  (∀ s : State, 0x0150 ≤ s.inp.image.len →
    ∃ g, grid s g ∧
      exec .logoRender s =
        .next
          { s with
            regs :=
              { s.regs with
                rbuf := g, rlen := 48, status := { s.regs.status with busy := false, done := true } } }) ∧
  (∀ s : State, s.regs.status.busy = false → 0x0150 ≤ s.inp.image.len →
    ∃ g, grid s g ∧
      Runs s 0x0E 1
        { Regs.cleared 0x0E with rbuf := g, rlen := 48, status := { Status.zero with done := true } }) ∧
  FaultsOnShortImage 0x0E

/-- R131: one Exec step of `HDR_CHK`, accumulating or completing. -/
def Obligations.HeaderChecksumStep : Prop :=
  ∀ s : State, 0x0150 ≤ s.inp.image.len →
    (s.regs.addr ≤ 0x014C →
      exec .hdrChk s =
        .next
          { s with
            regs :=
              { s.regs with
                acc8 := BitVec.ofInt 8 ((s.regs.acc8.toNat : Int) - (s.inp.image.byte s.regs.addr).toNat - 1)
                addr := s.regs.addr + 1 } }) ∧
    (0x014C < s.regs.addr →
      exec .hdrChk s =
        .next
          { s with
            regs :=
              { s.regs with
                res := BitVec.ofNat 16 s.regs.acc8.toNat
                tgt := BitVec.ofNat 16 (s.inp.image.byte 0x014D).toNat
                status :=
                  { s.regs.status with
                    pass := decide (s.regs.acc8 = s.inp.image.byte 0x014D), busy := false, done := true } } })

/-- R146: one Exec step of `GLB_CHK`, accumulating, skipping or completing. -/
def Obligations.GlobalChecksumStep : Prop :=
  ∀ s : State, 0x0150 ≤ s.inp.image.len →
    (s.regs.addr < s.inp.image.len →
      exec .glbChk s =
        .next
          { s with
            regs :=
              { s.regs with
                sum16 :=
                  if s.regs.addr = 0x014E ∨ s.regs.addr = 0x014F then s.regs.sum16
                  else BitVec.ofNat 16 (s.regs.sum16.toNat + (s.inp.image.byte s.regs.addr).toNat)
                addr := s.regs.addr + 1 } }) ∧
    (s.inp.image.len ≤ s.regs.addr →
      let target := (s.inp.image.byte 0x014E).toNat * 256 + (s.inp.image.byte 0x014F).toNat
      exec .glbChk s =
        .next
          { s with
            regs :=
              { s.regs with
                res := s.regs.sum16
                tgt := BitVec.ofNat 16 target
                status :=
                  { s.regs.status with
                    pass := decide (s.regs.sum16.toNat = target), busy := false, done := true } } })

/-! ## The two checksums over a whole run -/

/-- R135: `HDR_CHK` after `k` accumulating steps. -/
def Obligations.HeaderChecksumAfterSteps : Prop :=
  ∀ (s : State) (k : Nat), s.regs.status.busy = false → 0x0150 ≤ s.inp.image.len → k ≤ 25 →
    Runs s 0x0C k
      { Regs.cleared 0x0C with
        addr := 0x0134 + k
        acc8 :=
          BitVec.ofInt 8
            (-((((List.range k).map fun j => (s.inp.image.byte (0x0134 + j)).toNat).sum : Nat) : Int) - k)
        status := { Status.zero with busy := true } }

/-- R130: `HDR_CHK` completes, after 26 Exec steps, with the accumulator taken over the 25 bytes in ascending order;
with R136, that is `(0xE7 - S) mod 256`, `S` the integer sum of the bytes. -/
def Obligations.HeaderChecksumCommand : Prop :=
  (∀ s : State, s.regs.status.busy = false → 0x0150 ≤ s.inp.image.len →
    let b (j : Nat) : Nat := (s.inp.image.byte (0x0134 + j)).toNat
    let acc : Byte := (List.range 25).foldl (fun acc j => BitVec.ofInt 8 ((acc.toNat : Int) - b j - 1)) 0
    Runs s 0x0C 26
      { Regs.cleared 0x0C with
        acc8 := acc
        res := BitVec.ofNat 16 acc.toNat
        tgt := BitVec.ofNat 16 (s.inp.image.byte 0x014D).toNat
        addr := 0x014D
        status := { Status.zero with pass := decide (acc = s.inp.image.byte 0x014D), done := true } } ∧
    acc = BitVec.ofInt 8 (0xE7 - (((List.range 25).map b).sum : Nat))) ∧
  FaultsOnShortImage 0x0C

/-- R147: `GLB_CHK` after `k` accumulating or skipping steps. -/
def Obligations.GlobalChecksumAfterSteps : Prop :=
  ∀ (s : State) (k : Nat), s.regs.status.busy = false → 0x0150 ≤ s.inp.image.len → k ≤ s.inp.image.len →
    Runs s 0x0D k
      { Regs.cleared 0x0D with
        addr := k
        sum16 :=
          BitVec.ofNat 16
            ((List.range k).map fun a =>
              if a = 0x014E ∨ a = 0x014F then 0 else (s.inp.image.byte a).toNat).sum
        status := { Status.zero with busy := true } }

/-- R145, R149: `GLB_CHK` completes, after `LEN + 1` Exec steps, with the sum taken over every byte but the two at
0x014E and 0x014F in ascending order; with R150, that is their integer sum modulo 65536. -/
def Obligations.GlobalChecksumCommand : Prop :=
  (∀ s : State, s.regs.status.busy = false → 0x0150 ≤ s.inp.image.len →
    let b (a : Nat) : Nat := if a = 0x014E ∨ a = 0x014F then 0 else (s.inp.image.byte a).toNat
    let sum : Half := (List.range s.inp.image.len).foldl (fun sum a => BitVec.ofNat 16 (sum.toNat + b a)) 0
    let target := (s.inp.image.byte 0x014E).toNat * 256 + (s.inp.image.byte 0x014F).toNat
    Runs s 0x0D (s.inp.image.len + 1)
      { Regs.cleared 0x0D with
        sum16 := sum
        res := sum
        tgt := BitVec.ofNat 16 target
        addr := s.inp.image.len
        status := { Status.zero with pass := decide (sum.toNat = target), done := true } } ∧
    sum = BitVec.ofNat 16 ((List.range s.inp.image.len).map b).sum) ∧
  FaultsOnShortImage 0x0D

/-- R132, R134, R148: the two updates as integers reduced, and the equivalent forms of the first. -/
def Obligations.UpdateArithmetic : Prop :=
  (∀ acc b : Byte,
    (hdrUpdate acc b).toNat = (((acc.toNat : Int) - b.toNat - 1) % 256).toNat ∧
    hdrUpdate acc b = acc + (b ^^^ 0xFF) ∧ hdrUpdate acc b = acc + (255 - b)) ∧
  ∀ (sum : Half) (b : Byte), (glbUpdate sum b).toNat = (sum.toNat + b.toNat) % 65536

/-- R136: `HDR_CHK` depends on its 25 bytes only through their sum, so every permutation of them gives the same
accumulator (90_conflicts.md C4). -/
def Obligations.HeaderChecksumIgnoresByteOrder : Prop :=
  ∀ (s1 s2 : State) (r1 r2 : Regs),
    s1.regs.status.busy = false → s2.regs.status.busy = false →
    0x0150 ≤ s1.inp.image.len → 0x0150 ≤ s2.inp.image.len →
    Runs s1 0x0C 26 r1 → Runs s2 0x0C 26 r2 →
    (byteSum (s1.inp.image.bytes 0x0134 25) % 256 = byteSum (s2.inp.image.bytes 0x0134 25) % 256 ↔
      r1.acc8 = r2.acc8) ∧
    ((s1.inp.image.bytes 0x0134 25).Perm (s2.inp.image.bytes 0x0134 25) → r1.acc8 = r2.acc8)

/-- R137: changing one byte of the image from `b` to `b'`: inside the range the accumulator changes by `(b - b') mod
256`, elsewhere it does not change. -/
def Obligations.HeaderChecksumSensitivity : Prop :=
  ∀ (s : State) (a : Nat) (v : Byte) (r1 r2 : Regs),
    s.regs.status.busy = false → 0x0150 ≤ s.inp.image.len → s.inp.image.wf = true → a < s.inp.image.len →
    Runs s 0x0C 26 r1 →
    Runs { s with inp := { s.inp with image := s.inp.image.write a v } } 0x0C 26 r2 →
    (0x0134 ≤ a ∧ a ≤ 0x014C → r2.acc8 - r1.acc8 = s.inp.image.byte a - v) ∧
    (¬(0x0134 ≤ a ∧ a ≤ 0x014C) → r2.acc8 = r1.acc8)

/-- R138: writing the computed header checksum at 0x014D makes the check pass. -/
def Obligations.HeaderChecksumRoundTrip : Prop :=
  ∀ (s : State) (r1 : Regs),
    s.regs.status.busy = false → 0x0150 ≤ s.inp.image.len → s.inp.image.wf = true →
    Runs s 0x0C 26 r1 →
    ∃ r2, Runs { s with inp := { s.inp with image := s.inp.image.write 0x014D r1.acc8 } } 0x0C 26 r2 ∧
      r2.status.pass = true ∧ r2.acc8 = r1.acc8

/-- R149, R151: changing one byte at an address other than 0x014E and 0x014F changes the computed sum by `(b' - b) mod
65536`; changing one of those two never does. -/
def Obligations.GlobalChecksumSensitivity : Prop :=
  ∀ (s : State) (a : Nat) (v : Byte) (r1 r2 : Regs),
    s.regs.status.busy = false → 0x0150 ≤ s.inp.image.len → s.inp.image.wf = true → a < s.inp.image.len →
    Runs s 0x0D (s.inp.image.len + 1) r1 →
    Runs { s with inp := { s.inp with image := s.inp.image.write a v } } 0x0D (s.inp.image.len + 1) r2 →
    (a ≠ 0x014E ∧ a ≠ 0x014F →
      r2.sum16 - r1.sum16 = BitVec.ofInt 16 ((v.toNat : Int) - (s.inp.image.byte a).toNat) ∧
      (v ≠ s.inp.image.byte a → r2.sum16 ≠ r1.sum16 ∧ r2.res ≠ r1.res)) ∧
    (a = 0x014E ∨ a = 0x014F → r2.sum16 = r1.sum16 ∧ r2.res = r1.res)

/-- R154: writing the computed global checksum at 0x014E and 0x014F, high byte first, makes the check pass. -/
def Obligations.GlobalChecksumRoundTrip : Prop :=
  ∀ (s : State) (r1 : Regs),
    s.regs.status.busy = false → 0x0150 ≤ s.inp.image.len → s.inp.image.wf = true →
    Runs s 0x0D (s.inp.image.len + 1) r1 →
    let image := (s.inp.image.write 0x014E (r1.sum16.extractLsb' 8 8)).write 0x014F (r1.sum16.extractLsb' 0 8)
    ∃ r2, Runs { s with inp := { s.inp with image := image } } 0x0D (image.len + 1) r2 ∧
      r2.status.pass = true ∧ r2.sum16 = r1.sum16

/-- R152: appending a byte to the image adds that byte to the computed sum, so appending a non-zero byte changes it. -/
def Obligations.AppendedByteChangesTheSum : Prop :=
  ∀ (s : State) (v : Byte) (r1 r2 : Regs),
    s.regs.status.busy = false → 0x0150 ≤ s.inp.image.len → s.inp.image.wf = true →
    let longer := (s.inp.image.padTo (s.inp.image.len + 1)).write s.inp.image.len v
    Runs s 0x0D (s.inp.image.len + 1) r1 →
    Runs { s with inp := { s.inp with image := longer } } 0x0D (s.inp.image.len + 2) r2 →
    r2.sum16.toNat = (r1.sum16.toNat + v.toNat) % 65536 ∧ (v ≠ 0 → r2.sum16 ≠ r1.sum16)

/-- R153 with R116 and R137: changing one logo byte changes the global sum, makes the logo check and the global check
fail where they passed before, and leaves the header check as it was. -/
def Obligations.LogoFlipConsequences : Prop :=
  ∀ (s : State) (a : Nat) (v : Byte) (l1 h1 g1 l2 h2 g2 : Regs),
    s.regs.status.busy = false → 0x0150 ≤ s.inp.image.len → s.inp.image.wf = true →
    0x0104 ≤ a → a ≤ 0x0133 → v ≠ s.inp.image.byte a →
    let s2 : State := { s with inp := { s.inp with image := s.inp.image.write a v } }
    Runs s 0x01 1 l1 → Runs s 0x0C 26 h1 → Runs s 0x0D (s.inp.image.len + 1) g1 →
    Runs s2 0x01 1 l2 → Runs s2 0x0C 26 h2 → Runs s2 0x0D (s.inp.image.len + 1) g2 →
    (l1.status.pass = true → l2.status.pass = false) ∧
    h2 = h1 ∧
    g2.sum16 ≠ g1.sum16 ∧
    (g1.status.pass = true → g2.status.pass = false)

/-! ## The logo, text and lookup laws -/

/-- R116: `PASS = 1` iff the 48 logo bytes equal `REF_LOGO`; the verdict depends on no byte outside the logo. -/
def Obligations.LogoVerdictIsEquality : Prop :=
  ∀ (s : State) (t : State), 0x0150 ≤ s.inp.image.len → exec .logoChk s = .next t →
    (t.regs.status.pass = true ↔ s.inp.image.bytes 0x0104 48 = s.inp.refLogo.toList) ∧
    ∀ (a : Nat) (v : Byte) (t' : State), s.inp.image.wf = true → a < s.inp.image.len →
      exec .logoChk { s with inp := { s.inp with image := s.inp.image.write a v } } = .next t' →
      (¬(0x0104 ≤ a ∧ a ≤ 0x0133) → t'.regs.status.pass = t.regs.status.pass) ∧
      (0x0104 ≤ a ∧ a ≤ 0x0133 → v ≠ s.inp.image.byte a → t.regs.status.pass = true →
        t'.regs.status.pass = false)

/-- R122: cell `4*c + j` of row `4*h + r` is filled iff bit `3 - j` of `Nibble(h, r, c)` is 1. -/
def Obligations.RenderedCells : Prop :=
  ∀ (s t : State), 0x0150 ≤ s.inp.image.len → exec .logoRender s = .next t →
    ∀ (h : Fin 2) (r : Fin 4) (c : Fin 12) (j : Fin 4),
      let b := s.inp.image.byte (0x0104 + 24 * h.val + 2 * c.val + r.val / 2)
      t.regs.cell (4 * h + r) (4 * c + j) = if r.val % 2 = 0 then b.getLsbD (7 - j) else b.getLsbD (3 - j)

/-- R123: two images render alike iff their logo bytes are equal. -/
def Obligations.RenderingIsInjective : Prop :=
  ∀ (s1 s2 t1 t2 : State), 0x0150 ≤ s1.inp.image.len → 0x0150 ≤ s2.inp.image.len →
    exec .logoRender s1 = .next t1 → exec .logoRender s2 = .next t2 →
    (t1.regs.rbuf = t2.regs.rbuf ↔ s1.inp.image.bytes 0x0104 48 = s2.inp.image.bytes 0x0104 48)

/-- R93, R96: `TITLE` and `MANUF` complete without a fault; `RBUF[i]` for `i < RLEN` is the image byte, `DEGR = 1` iff
some `RMASK[i] = 1` with `i < RLEN`, and no mask bit at or above `RLEN` is set; `NA = 1` iff the command is `MANUF` and
the four manufacturer bytes are zero. -/
def Obligations.TextLaws : Prop :=
  ∀ (s : State) (c : Byte) (start : Nat),
    (c = 0x02 ∧ start = 0x0134) ∨ (c = 0x03 ∧ start = 0x013F) →
    s.regs.status.busy = false → 0x0150 ≤ s.inp.image.len →
    ∃ r, Runs s c 1 r ∧ ResultsValid r ∧
      (∀ i : Fin 48, i.val < r.rlen.toNat → r.rbuf[i] = s.inp.image.byte (start + i)) ∧
      (r.status.degr = true ↔ ∃ i, i < r.rlen.toNat ∧ r.rmask.getLsbD i = true) ∧
      (∀ i, r.rlen.toNat ≤ i → r.rmask.getLsbD i = false) ∧
      (r.status.na = true ↔ c = 0x03 ∧ s.inp.image.bytes 0x013F 4 = [0, 0, 0, 0])

/-- R100, R107: after a lookup command `UNK = 1` iff `LABEL = UNKNOWN_LABEL`, `RES` is the code looked up, `NEWPUB = 1`
iff `PUBLISHER` found the sentinel, and the command has completed without a fault, whatever the tables are. -/
def Obligations.LookupLaws : Prop :=
  ∀ (s : State) (c : Byte), c ∈ ([0x06, 0x07, 0x08, 0x09, 0x0A] : List Byte) →
    s.regs.status.busy = false → 0x0150 ≤ s.inp.image.len →
    ∃ r, Runs s c 1 r ∧ ResultsValid r ∧
      (r.status.unk = true ↔ r.label = .unknown) ∧
      (r.status.newPub = true ↔ c = 0x06 ∧ s.inp.image.byte 0x014B = 0x33) ∧
      (r.status.newPub = true →
        r.res.toNat = (s.inp.image.byte 0x0144).toNat * 256 + (s.inp.image.byte 0x0145).toNat) ∧
      (r.status.newPub = false →
        r.res.toNat = (s.inp.image.byte (if c = 0x06 then 0x014B else 0x0140 + c.toNat)).toNat)

/-! ## Whole-machine rules -/

/-- The reset state meets the invariant of every reachable state. -/
def Obligations.ResetMeetsTheInvariant : Prop := Inv State.reset

/-- R14, R22, R135, R147 as one invariant: every step from a state that meets it gives a state that meets it. -/
def Obligations.EveryStepKeepsTheInvariant : Prop :=
  ∀ s t : State, Inv s → step s = .next t → Inv t

/-- R188: no step of a state that meets the invariant faults; the only steps without a meaning are those at which the
host presents inputs it may not present. -/
def Obligations.NoStepFaults : Prop :=
  ∀ s : State, Inv s →
    (∃ t, step s = .next t) ∨
    (∃ x ts, s.script = .present x :: ts ∧
      ((s.regs.status.busy = true ∧ x ≠ s.inp ∧ step s = .refused .inputsChangedWhileBusy) ∨
       (x.wf s.par = false ∧ step s = .refused .inputsOutsideConstraints)))

/-- R209, R210: every accepted issue reaches `DONE = 1` after its number of Exec steps and not before. -/
def Obligations.EveryCommandCompletes : Prop :=
  ∀ (s : State) (c : Byte), s.regs.status.busy = false →
    (∃ r, Runs s c (execSteps c s.inp) r ∧ r.status.done = true ∧ r.status.busy = false ∧ r.op = c) ∧
    ∀ k, k < execSteps c s.inp → ∃ r, Runs s c k r ∧ r.status.done = false ∧ r.status.busy = true

/-- R25: the state at completion is the same whatever the state before the issue was. -/
def Obligations.CompletionIsPure : Prop :=
  ∀ (s1 s2 : State) (c : Byte),
    s1.regs.status.busy = false → s2.regs.status.busy = false → s1.par = s2.par → s1.inp = s2.inp →
    ∃ r, Runs s1 c (execSteps c s1.inp) r ∧ Runs s2 c (execSteps c s2.inp) r ∧ r.status.done = true

/-- R56: the result of a command depends on no image byte outside its read set (and, for `GLB_CHK`, on `LEN`). -/
def Obligations.ResultsDependOnlyOnTheReadSet : Prop :=
  ∀ (s : State) (m : Memory) (i : Instr),
    s.regs.status.busy = false → 0x0150 ≤ s.inp.image.len → 0x0150 ≤ m.len →
    (i = .glbChk → m.len = s.inp.image.len) →
    (∀ a, readSet i s.inp.image a → m.byte a = s.inp.image.byte a) →
    ∃ r, Runs s (opcode i) (execSteps (opcode i) s.inp) r ∧
      Runs { s with inp := { s.inp with image := m } } (opcode i) (execSteps (opcode i) s.inp) r

/-- R187: the record of a fault lasts until the next accepted issue, which runs as if the fault had not happened. -/
def Obligations.FaultLeavesNoTrace : Prop :=
  ∀ (s : State) (bad c : Byte) (ts : List Turn),
    s.regs.status.busy = false → ¬(1 ≤ bad.toNat ∧ bad.toNat ≤ 14) →
    ∃ r,
      Host.Core.run Sys2Proof.core (execSteps c s.inp + 2)
          { s with script := .issue bad :: .issue c :: (List.replicate (execSteps c s.inp) .exec ++ ts) } =
        .next { s with script := ts, regs := r } ∧
      Runs s c (execSteps c s.inp) r

/-- R68: the host's loop over any list of command words runs to its end, leaving an idle block with `DONE = 1`, its
inputs as they were and `OP` the last word. The turns in which the host waits, and the block's turns meanwhile, are the
model's (log entry 1), and so are the set and the order of the registers read (log entry 26). -/
def Obligations.HostLoopRunsToItsEnd : Prop :=
  ∀ (s : State) (cs : List Byte) (c : Byte), Inv s →
    s.script = hostLoop (cs ++ [c]) →
    ∃ n t, Host.Core.run Sys2Proof.core n s = .next t ∧
      t.script = [] ∧ t.inp = s.inp ∧ t.regs.status.done = true ∧ t.regs.status.busy = false ∧ t.regs.op = c

/-! ## Report strings -/

/-- R160, R163 to R168, R170: the formats of the reports that are one field or one verdict, and when a report is
defined. -/
def Obligations.ReportFormats : Prop :=
  ∀ (pr : Presentation) (r : Regs),
    (∀ i, (report pr i r).isSome = true ↔ ResultsValid r) ∧
    (ResultsValid r →
      report pr .cgb r = some (pr.hexfmt (r.res.setWidth 8)) ∧
      report pr .sgb r = some (pr.hexfmt (r.res.setWidth 8)) ∧
      report pr .maskver r = some (pr.hexfmt (r.res.setWidth 8)) ∧
      (r.status.newPub = false →
        report pr .publisher r = some (pr.hexfmt (r.res.setWidth 8) ++ [' ', '-', ' '] ++ pr.name r.label)) ∧
      (r.status.newPub = true →
        report pr .publisher r =
          some
            (['\'', if r.rmask.getLsbD 0 then pr.repl else charOf r.rbuf[0],
              if r.rmask.getLsbD 1 then pr.repl else charOf r.rbuf[1], '\'', ' ', '-', ' '] ++ pr.name r.label)) ∧
      report pr .dest r = some (pr.hexfmt (r.res.setWidth 8) ++ [' ', '-', ' '] ++ pr.name r.label) ∧
      report pr .cart r = some (pr.name r.label) ∧
      report pr .romsz r = some (pr.name r.label) ∧
      report pr .ramsz r = some (pr.name r.label) ∧
      (∀ i ∈ [Instr.logoChk, .hdrChk, .glbChk],
        report pr i r = some (if r.status.pass then ['P', 'A', 'S', 'S'] else ['F', 'A', 'I', 'L'])))

/-- R91, R169 with R162 and R94: `Trim` removes the longest suffix of zero bytes and nothing else; a title is reported
as the characters of what is left, and a manufacturer code as its four characters, each being `Repl` where its mask bit
is 1 and the character with the byte's code otherwise; R95's ten bytes are the characters TESTGAME and 01. The
character of a byte outside 0x20 to 0x7E (log entry 23) and the words "not applicable" (log entry 24) are the model's. -/
def Obligations.TrimmedTitle : Prop :=
  (∀ bs : List Byte,
    (∃ n, bs = trim bs ++ List.replicate n 0) ∧ ((trim bs).getLast? ≠ some 0)) ∧
  (∀ (pr : Presentation) (r : Regs), ResultsValid r →
    let characters (bs : List Byte) : Text :=
      bs.zipIdx.map fun x => if r.rmask.getLsbD x.2 then pr.repl else Char.ofNat x.1.toNat
    report pr .title r = some (characters (trim (r.rbuf.toList.take 16))) ∧
    report pr .manuf r =
      some
        (if r.status.na then ['n', 'o', 't', ' ', 'a', 'p', 'p', 'l', 'i', 'c', 'a', 'b', 'l', 'e']
        else characters (r.rbuf.toList.take 4))) ∧
  ([0x54, 0x45, 0x53, 0x54, 0x47, 0x41, 0x4D, 0x45, 0x30, 0x31] : List Byte).map charOf =
    ['T', 'E', 'S', 'T', 'G', 'A', 'M', 'E', '0', '1']

/-- R171: the logo grid is 8 lines of 48 characters, character `x` of line `y` being the filled one iff bit `7 - (x mod
8)` of `RBUF[6*y + (x div 8)]` is set. That the lines are joined by line ends is the model's choice (log entry 11). -/
def Obligations.LogoGridReport : Prop :=
  ∀ (pr : Presentation) (r : Regs), ResultsValid r →
    ∃ lines : List Text, report pr .logoRender r = some (List.intercalate ['\n'] lines) ∧ lines.length = 8 ∧
      (∀ line ∈ lines, line.length = 48) ∧
      ∀ (y : Fin 8) (x : Fin 48),
        (lines[y.val]?).bind (fun l => l[x.val]?) =
          some (if (r.rbuf[6 * y.val + x.val / 8]'(by omega)).getLsbD (7 - x.val % 8) then pr.filled else pr.blank)

/-- R161: `Hex2(b)` is exactly two upper-case hexadecimal digits, zero-padded, without a prefix, and it is the default
`HEXFMT`: a presentation that names no other reports the CGB flag so. -/
def Obligations.DefaultHexFormat : Prop :=
  let digits : Text := ['0', '1', '2', '3', '4', '5', '6', '7', '8', '9', 'A', 'B', 'C', 'D', 'E', 'F']
  (∀ b : Byte, ∃ high ∈ digits, ∃ low ∈ digits,
    hex2 b = [high, low] ∧ digits.idxOf high * 16 + digits.idxOf low = b.toNat) ∧
  ∀ (unknownText : Text) (repl filled blank : Char) (r : Regs), ResultsValid r →
    report { unknownText := unknownText, repl := repl, filled := filled, blank := blank } .cgb r =
      some [digits.getD (r.res.toNat % 256 / 16) ' ', digits.getD (r.res.toNat % 16) ' ']
end

