-- ==== Sys2Proof/Laws/State.lean ====
section
/-! SUPPORT. One lemma per field for each named update of the registers and of the state, true by unfolding once, so
that no later proof unfolds an update. -/

namespace Sys2Proof.Machine

/-! ## Registers -/

@[simp] theorem Regs.cleared_op (c : Byte) : (Regs.cleared c).op = c := rfl
@[simp] theorem Regs.cleared_status (c : Byte) : (Regs.cleared c).status = Status.zero := rfl
@[simp] theorem Regs.cleared_res (c : Byte) : (Regs.cleared c).res = 0 := rfl
@[simp] theorem Regs.cleared_tgt (c : Byte) : (Regs.cleared c).tgt = 0 := rfl
@[simp] theorem Regs.cleared_acc8 (c : Byte) : (Regs.cleared c).acc8 = 0 := rfl
@[simp] theorem Regs.cleared_sum16 (c : Byte) : (Regs.cleared c).sum16 = 0 := rfl
@[simp] theorem Regs.cleared_addr (c : Byte) : (Regs.cleared c).addr = 0 := rfl
@[simp] theorem Regs.cleared_rlen (c : Byte) : (Regs.cleared c).rlen = 0 := rfl
@[simp] theorem Regs.cleared_rmask (c : Byte) : (Regs.cleared c).rmask = 0 := rfl
@[simp] theorem Regs.cleared_label (c : Byte) : (Regs.cleared c).label = .unknown := rfl
@[simp] theorem Regs.cleared_rbuf (c : Byte) : (Regs.cleared c).rbuf = Vector.replicate 48 0 := rfl

theorem clear_eq (r : Regs) : clear r = Regs.cleared r.op := rfl

theorem resetRegs_eq (r : Regs) : resetRegs r = Regs.cleared 0 := rfl

theorem reset_regs_eq : State.reset.regs = Regs.cleared 0 := rfl

@[simp] theorem raiseFault_op (code : FaultCode) (r : Regs) : (raiseFault code r).op = r.op := rfl
@[simp] theorem raiseFault_status (code : FaultCode) (r : Regs) : (raiseFault code r).status = { r.status with fault := true, fcode := code, done := true } := rfl
@[simp] theorem raiseFault_res (code : FaultCode) (r : Regs) : (raiseFault code r).res = r.res := rfl
@[simp] theorem raiseFault_tgt (code : FaultCode) (r : Regs) : (raiseFault code r).tgt = r.tgt := rfl
@[simp] theorem raiseFault_acc8 (code : FaultCode) (r : Regs) : (raiseFault code r).acc8 = r.acc8 := rfl
@[simp] theorem raiseFault_sum16 (code : FaultCode) (r : Regs) : (raiseFault code r).sum16 = r.sum16 := rfl
@[simp] theorem raiseFault_addr (code : FaultCode) (r : Regs) : (raiseFault code r).addr = r.addr := rfl
@[simp] theorem raiseFault_rlen (code : FaultCode) (r : Regs) : (raiseFault code r).rlen = r.rlen := rfl
@[simp] theorem raiseFault_rmask (code : FaultCode) (r : Regs) : (raiseFault code r).rmask = r.rmask := rfl
@[simp] theorem raiseFault_label (code : FaultCode) (r : Regs) : (raiseFault code r).label = r.label := rfl
@[simp] theorem raiseFault_rbuf (code : FaultCode) (r : Regs) : (raiseFault code r).rbuf = r.rbuf := rfl

@[simp] theorem complete_op (r : Regs) : (complete r).op = r.op := rfl
@[simp] theorem complete_status (r : Regs) : (complete r).status = { r.status with busy := false, done := true } := rfl
@[simp] theorem complete_res (r : Regs) : (complete r).res = r.res := rfl
@[simp] theorem complete_tgt (r : Regs) : (complete r).tgt = r.tgt := rfl
@[simp] theorem complete_acc8 (r : Regs) : (complete r).acc8 = r.acc8 := rfl
@[simp] theorem complete_sum16 (r : Regs) : (complete r).sum16 = r.sum16 := rfl
@[simp] theorem complete_addr (r : Regs) : (complete r).addr = r.addr := rfl
@[simp] theorem complete_rlen (r : Regs) : (complete r).rlen = r.rlen := rfl
@[simp] theorem complete_rmask (r : Regs) : (complete r).rmask = r.rmask := rfl
@[simp] theorem complete_label (r : Regs) : (complete r).label = r.label := rfl
@[simp] theorem complete_rbuf (r : Regs) : (complete r).rbuf = r.rbuf := rfl

@[simp] theorem placeText_op (bs : List Byte) (r : Regs) : (placeText bs r).op = r.op := rfl
@[simp] theorem placeText_status (bs : List Byte) (r : Regs) : (placeText bs r).status = r.status := rfl
@[simp] theorem placeText_res (bs : List Byte) (r : Regs) : (placeText bs r).res = r.res := rfl
@[simp] theorem placeText_tgt (bs : List Byte) (r : Regs) : (placeText bs r).tgt = r.tgt := rfl
@[simp] theorem placeText_acc8 (bs : List Byte) (r : Regs) : (placeText bs r).acc8 = r.acc8 := rfl
@[simp] theorem placeText_sum16 (bs : List Byte) (r : Regs) : (placeText bs r).sum16 = r.sum16 := rfl
@[simp] theorem placeText_addr (bs : List Byte) (r : Regs) : (placeText bs r).addr = r.addr := rfl
@[simp] theorem placeText_rlen (bs : List Byte) (r : Regs) : (placeText bs r).rlen = BitVec.ofNat 6 bs.length := rfl
@[simp] theorem placeText_rmask (bs : List Byte) (r : Regs) : (placeText bs r).rmask = r.rmask := rfl
@[simp] theorem placeText_label (bs : List Byte) (r : Regs) : (placeText bs r).label = r.label := rfl
@[simp] theorem placeText_rbuf (bs : List Byte) (r : Regs) : (placeText bs r).rbuf = writeRbuf r.rbuf bs := rfl

@[simp] theorem markText_op (p : Params) (bs : List Byte) (r : Regs) : (markText p bs r).op = r.op := rfl
@[simp] theorem markText_status (p : Params) (bs : List Byte) (r : Regs) : (markText p bs r).status = { r.status with degr := degraded (maskText p bs 0 r.rmask) } := rfl
@[simp] theorem markText_res (p : Params) (bs : List Byte) (r : Regs) : (markText p bs r).res = r.res := rfl
@[simp] theorem markText_tgt (p : Params) (bs : List Byte) (r : Regs) : (markText p bs r).tgt = r.tgt := rfl
@[simp] theorem markText_acc8 (p : Params) (bs : List Byte) (r : Regs) : (markText p bs r).acc8 = r.acc8 := rfl
@[simp] theorem markText_sum16 (p : Params) (bs : List Byte) (r : Regs) : (markText p bs r).sum16 = r.sum16 := rfl
@[simp] theorem markText_addr (p : Params) (bs : List Byte) (r : Regs) : (markText p bs r).addr = r.addr := rfl
@[simp] theorem markText_rlen (p : Params) (bs : List Byte) (r : Regs) : (markText p bs r).rlen = r.rlen := rfl
@[simp] theorem markText_rmask (p : Params) (bs : List Byte) (r : Regs) : (markText p bs r).rmask = maskText p bs 0 r.rmask := rfl
@[simp] theorem markText_label (p : Params) (bs : List Byte) (r : Regs) : (markText p bs r).label = r.label := rfl
@[simp] theorem markText_rbuf (p : Params) (bs : List Byte) (r : Regs) : (markText p bs r).rbuf = r.rbuf := rfl

@[simp] theorem lookupLabel_op (hit : Option Text) (r : Regs) : (lookupLabel hit r).op = r.op := by
  cases hit <;> rfl
@[simp] theorem lookupLabel_status (hit : Option Text) (r : Regs) :
    (lookupLabel hit r).status = { r.status with unk := hit.isNone } := by cases hit <;> rfl
@[simp] theorem lookupLabel_res (hit : Option Text) (r : Regs) : (lookupLabel hit r).res = r.res := by
  cases hit <;> rfl
@[simp] theorem lookupLabel_tgt (hit : Option Text) (r : Regs) : (lookupLabel hit r).tgt = r.tgt := by
  cases hit <;> rfl
@[simp] theorem lookupLabel_acc8 (hit : Option Text) (r : Regs) : (lookupLabel hit r).acc8 = r.acc8 := by
  cases hit <;> rfl
@[simp] theorem lookupLabel_sum16 (hit : Option Text) (r : Regs) : (lookupLabel hit r).sum16 = r.sum16 := by
  cases hit <;> rfl
@[simp] theorem lookupLabel_addr (hit : Option Text) (r : Regs) : (lookupLabel hit r).addr = r.addr := by
  cases hit <;> rfl
@[simp] theorem lookupLabel_rlen (hit : Option Text) (r : Regs) : (lookupLabel hit r).rlen = r.rlen := by
  cases hit <;> rfl
@[simp] theorem lookupLabel_rmask (hit : Option Text) (r : Regs) : (lookupLabel hit r).rmask = r.rmask := by
  cases hit <;> rfl
@[simp] theorem lookupLabel_label (hit : Option Text) (r : Regs) :
    (lookupLabel hit r).label = (match hit with | some l => .named l | none => .unknown) := by cases hit <;> rfl
@[simp] theorem lookupLabel_rbuf (hit : Option Text) (r : Regs) : (lookupLabel hit r).rbuf = r.rbuf := by
  cases hit <;> rfl

/-! ## States -/

@[simp] theorem State.withRegs_par (s : State) (r : Regs) : (s.withRegs r).par = s.par := rfl
@[simp] theorem State.withRegs_inp (s : State) (r : Regs) : (s.withRegs r).inp = s.inp := rfl
@[simp] theorem State.withRegs_regs (s : State) (r : Regs) : (s.withRegs r).regs = r := rfl
@[simp] theorem State.withRegs_script (s : State) (r : Regs) : (s.withRegs r).script = s.script := rfl
@[simp] theorem State.withRegs_lastRead (s : State) (r : Regs) : (s.withRegs r).lastRead = s.lastRead := rfl

/-! ## Images -/

@[simp] theorem Memory.padTo_cells (m : Memory) (n : Nat) : (m.padTo n).cells = m.cells := rfl
@[simp] theorem Memory.padTo_len (m : Memory) (n : Nat) : (m.padTo n).len = max m.len n := rfl
@[simp] theorem Memory.padTo_byte (m : Memory) (n a : Nat) : (m.padTo n).byte a = m.byte a := rfl
@[simp] theorem Memory.write_len (m : Memory) (a : Nat) (b : Byte) : (m.write a b).len = m.len := by
  unfold Memory.write; split <;> rfl

end Sys2Proof.Machine
end

