-- ==== Sys2Proof/Laws/Memory.lean ====
section
/-! SUPPORT. The image space: what a read gives, read after write, and that every operation keeps the canonical form
(spec/20_memory.md R41 to R45). -/

namespace Sys2Proof.Machine

theorem Memory.read_of_lt {m : Memory} {a : Nat} (h : a < m.len) : m.read a = some (m.byte a) := by
  simp [Memory.read, h]

theorem Memory.read_of_le {m : Memory} {a : Nat} (h : m.len ≤ a) : m.read a = none := by
  simp [Memory.read, Nat.not_lt.2 h]

/-- The listing's form: rising addresses, no zero byte. -/
def Listed (cs : List Host.Cell) : Prop := cs.Pairwise (fun x y => x.1 < y.1) ∧ ∀ c ∈ cs, c.2 ≠ 0

theorem Memory.wf_iff (m : Memory) : m.wf = true ↔ Listed m.cells ∧ ∀ c ∈ m.cells, c.1 < m.len := by
  simp only [Memory.wf, Listed, Bool.and_eq_true, decide_eq_true_eq, List.all_eq_true, bne_iff_ne, ne_eq]
  constructor
  · rintro ⟨hp, ha⟩
    exact ⟨⟨hp, fun c hc => (ha c hc).2⟩, fun c hc => (ha c hc).1⟩
  · rintro ⟨⟨hp, hz⟩, hl⟩
    exact ⟨hp, fun c hc => ⟨hl c hc, hz c hc⟩⟩

theorem cellAt_of_lt {cs : List Host.Cell} {a : Nat} (h : ∀ c ∈ cs, a < c.1) : cellAt cs a = 0 := by
  induction cs with
  | nil => rfl
  | cons c cs ih =>
    have hc := h c (by simp)
    simp only [cellAt]
    rw [if_neg (by omega)]
    exact ih fun d hd => h d (by simp [hd])

/-- Every listed cell after a write is the one written or was listed before. -/
theorem mem_putCell {cs : List Host.Cell} {a : Nat} {b : Byte} {c : Host.Cell} (h : c ∈ putCell cs a b) :
    (c = (a, b) ∧ b ≠ 0) ∨ c ∈ cs := by
  induction cs with
  | nil =>
    simp only [putCell] at h
    split at h
    · simp at h
    · next hb => simp at h; exact .inl ⟨h, hb⟩
  | cons d cs ih =>
    simp only [putCell] at h
    split at h
    · split at h
      · exact .inr h
      · next hb =>
        rcases List.mem_cons.1 h with h | h
        · exact .inl ⟨h, hb⟩
        · exact .inr h
    · split at h
      · split at h
        · exact .inr (by simp [h])
        · next hb =>
          rcases List.mem_cons.1 h with h | h
          · exact .inl ⟨h, hb⟩
          · exact .inr (by simp [h])
      · rcases List.mem_cons.1 h with h | h
        · exact .inr (by simp [h])
        · rcases ih h with h | h
          · exact .inl h
          · exact .inr (by simp [h])

theorem Listed.putCell {cs : List Host.Cell} (h : Listed cs) (a : Nat) (b : Byte) : Listed (putCell cs a b) := by
  refine ⟨?_, fun c hc => ?_⟩
  · induction cs with
    | nil => simp only [Machine.putCell]; split <;> simp
    | cons d cs ih =>
      obtain ⟨hp, hz⟩ := h
      obtain ⟨hd, hp⟩ := List.pairwise_cons.1 hp
      have ih := ih ⟨hp, fun c hc => hz c (by simp [hc])⟩
      simp only [Machine.putCell]
      split
      · next hlt =>
        split
        · exact List.pairwise_cons.2 ⟨hd, hp⟩
        · refine List.pairwise_cons.2 ⟨fun c hc => ?_, List.pairwise_cons.2 ⟨hd, hp⟩⟩
          rcases List.mem_cons.1 hc with rfl | hc
          · exact hlt
          · exact Nat.lt_trans hlt (hd c hc)
      · split
        · next heq =>
          split
          · exact hp
          · exact List.pairwise_cons.2 ⟨fun c hc => heq ▸ hd c hc, hp⟩
        · refine List.pairwise_cons.2 ⟨fun c hc => ?_, ih⟩
          rcases mem_putCell hc with ⟨rfl, -⟩ | hc
          · show d.1 < a; omega
          · exact hd c hc
  · rcases mem_putCell hc with ⟨rfl, hb⟩ | hc
    · exact hb
    · exact h.2 c hc

theorem cellAt_putCell_same {cs : List Host.Cell} (h : Listed cs) (a : Nat) (b : Byte) :
    cellAt (putCell cs a b) a = b := by
  induction cs with
  | nil => simp only [putCell]; split <;> simp_all [cellAt]
  | cons d cs ih =>
    obtain ⟨hp, hz⟩ := h
    obtain ⟨hd, hp⟩ := List.pairwise_cons.1 hp
    have ih := ih ⟨hp, fun c hc => hz c (by simp [hc])⟩
    have habsent : ∀ x, x ≤ d.1 → cellAt cs x = 0 := fun x hx =>
      cellAt_of_lt fun c hc => Nat.lt_of_le_of_lt hx (hd c hc)
    simp only [putCell]
    split
    · next hlt =>
      split
      · next hb =>
        simp only [cellAt]
        rw [if_neg (by omega), habsent a (by omega), hb]
      · simp [cellAt]
    · split
      · next heq =>
        split
        · next hb => rw [habsent a (by omega), hb]
        · simp [cellAt]
      · simp only [cellAt]
        rw [if_neg (by omega)]
        exact ih

theorem cellAt_putCell_other {cs : List Host.Cell} (h : Listed cs) {a x : Nat} (b : Byte) (hx : x ≠ a) :
    cellAt (putCell cs a b) x = cellAt cs x := by
  induction cs with
  | nil => simp only [putCell]; split <;> simp [cellAt, hx]
  | cons d cs ih =>
    obtain ⟨hp, hz⟩ := h
    obtain ⟨hd, hp⟩ := List.pairwise_cons.1 hp
    have ih := ih ⟨hp, fun c hc => hz c (by simp [hc])⟩
    simp only [putCell]
    split
    · split
      · rfl
      · simp [cellAt, hx]
    · split
      · next heq =>
        split
        · simp only [cellAt]
          rw [if_neg (by omega)]
        · simp only [cellAt]
          rw [if_neg hx, if_neg (by omega)]
      · simp only [cellAt]
        split
        · rfl
        · exact ih

theorem Memory.byte_write_same {m : Memory} (h : m.wf = true) {a : Nat} (ha : a < m.len) (b : Byte) :
    (m.write a b).byte a = b := by
  simp [Memory.byte, Memory.write, ha, cellAt_putCell_same ((Memory.wf_iff m).1 h).1]

theorem Memory.byte_write_other {m : Memory} (h : m.wf = true) {a x : Nat} (b : Byte) (hx : x ≠ a) :
    (m.write a b).byte x = m.byte x := by
  unfold Memory.byte Memory.write
  split
  · exact cellAt_putCell_other ((Memory.wf_iff m).1 h).1 b hx
  · rfl

theorem Memory.write_wf {m : Memory} (h : m.wf = true) (a : Nat) (b : Byte) : (m.write a b).wf = true := by
  obtain ⟨hl, hr⟩ := (Memory.wf_iff m).1 h
  rw [Memory.wf_iff]
  unfold Memory.write
  split
  · next ha =>
    refine ⟨hl.putCell a b, fun c hc => ?_⟩
    rcases mem_putCell hc with ⟨rfl, -⟩ | hc
    · exact ha
    · exact hr c hc
  · exact ⟨hl, hr⟩

theorem Memory.writeAll_wf {m : Memory} (h : m.wf = true) (a : Nat) (bs : List Byte) :
    (m.writeAll a bs).wf = true := by
  induction bs generalizing m a with
  | nil => exact h
  | cons b bs ih => exact ih (Memory.write_wf h a b) (a + 1)

theorem Memory.padTo_wf {m : Memory} (h : m.wf = true) (n : Nat) : (m.padTo n).wf = true := by
  obtain ⟨hl, hr⟩ := (Memory.wf_iff m).1 h
  rw [Memory.wf_iff]
  exact ⟨hl, fun c hc => Nat.lt_of_lt_of_le (hr c hc) (Nat.le_max_left _ _)⟩

/-- Two canonical listings that read alike are equal: the form is canonical. -/
theorem Listed.ext {cs ds : List Host.Cell} (hc : Listed cs) (hd : Listed ds)
    (h : ∀ a, cellAt cs a = cellAt ds a) : cs = ds := by
  induction cs generalizing ds with
  | nil =>
    cases ds with
    | nil => rfl
    | cons d ds =>
      have := h d.1
      simp only [cellAt, if_true] at this
      exact absurd this.symm (hd.2 d (by simp))
  | cons c cs ih =>
    obtain ⟨hcp, hcz⟩ := hc
    obtain ⟨hch, hcp⟩ := List.pairwise_cons.1 hcp
    cases ds with
    | nil =>
      have := h c.1
      simp only [cellAt, if_true] at this
      exact absurd this (hcz c (by simp))
    | cons d ds =>
      obtain ⟨hdp, hdz⟩ := hd
      obtain ⟨hdh, hdp⟩ := List.pairwise_cons.1 hdp
      have hkey : c.1 = d.1 := by
        rcases Nat.lt_trichotomy c.1 d.1 with hlt | heq | hgt
        · have := h c.1
          simp only [cellAt, if_true] at this
          rw [if_neg (by omega), cellAt_of_lt fun x hx => Nat.lt_trans hlt (hdh x hx)] at this
          exact absurd this (hcz c (by simp))
        · exact heq
        · have := h d.1
          simp only [cellAt, if_true] at this
          rw [if_neg (by omega), cellAt_of_lt fun x hx => Nat.lt_trans hgt (hch x hx)] at this
          exact absurd this.symm (hdz d (by simp))
      have hval : c.2 = d.2 := by
        have := h c.1
        simp only [cellAt, if_true] at this
        rwa [if_pos hkey] at this
      have htail : cs = ds := by
        refine ih ⟨hcp, fun x hx => hcz x (by simp [hx])⟩ ⟨hdp, fun x hx => hdz x (by simp [hx])⟩ fun a => ?_
        rcases Nat.lt_trichotomy a c.1 with hlt | heq | hgt
        · rw [cellAt_of_lt fun x hx => Nat.lt_trans hlt (hch x hx),
            cellAt_of_lt fun x hx => Nat.lt_trans (hkey ▸ hlt) (hdh x hx)]
        · rw [cellAt_of_lt fun x hx => heq ▸ hch x hx, cellAt_of_lt fun x hx => (heq.trans hkey) ▸ hdh x hx]
        · have := h a
          simp only [cellAt] at this
          rwa [if_neg (by omega), if_neg (by omega)] at this
      rw [htail, show c = d from Prod.ext hkey hval]

/-- A slice inside the image gives its bytes in ascending order (R45). -/
theorem Memory.slice_of_le {m : Memory} {n a : Nat} (h : a + n ≤ m.len) :
    m.slice a n = some ((List.range n).map fun i => m.byte (a + i)) := by
  induction n generalizing a with
  | zero => rfl
  | succ n ih =>
    simp only [Memory.slice]
    rw [Memory.read_of_lt (by omega), ih (by omega), List.range_succ_eq_map]
    simp [Function.comp_def, Nat.add_assoc, Nat.add_comm 1]

end Sys2Proof.Machine
end

