-- ==== Sys2Proof/Laws/Exec.lean ====
section
/-! SUPPORT. What each shared operation answers: the reads, the placing of text and mask, issue in each case, the
meanings on an image that is long enough, and the turns of the step. -/

namespace Sys2Proof.Machine

/-! ## Reads -/

theorem withByte_of_lt {s : State} {a : Nat} (h : a < s.inp.image.len) (k : Byte → Result) :
    withByte s a k = k (s.inp.image.byte a) := by
  simp [withByte, Memory.read_of_lt h]

theorem withSlice_of_le {s : State} {a n : Nat} (h : a + n ≤ s.inp.image.len) (k : List Byte → Result) :
    withSlice s a n k = k ((List.range n).map fun i => s.inp.image.byte (a + i)) := by
  simp [withSlice, Memory.slice_of_le h]

theorem withTarget16_of_le {s : State} (h : 0x0150 ≤ s.inp.image.len) (k : Half → Result) :
    withTarget16 s k = k (bigEndian16 (s.inp.image.byte 0x014E) (s.inp.image.byte 0x014F)) := by
  unfold withTarget16
  rw [withByte_of_lt (by simp [Layout.glbSum]; omega), withByte_of_lt (by simp [Layout.glbSum]; omega)]
  rfl

/-! ## Assembly of values -/

theorem zext16_toNat (b : Byte) : (zext16 b).toNat = b.toNat := by
  simp only [zext16, BitVec.toNat_setWidth]
  exact Nat.mod_eq_of_lt (by have := b.isLt; omega)

theorem zext16_eq (b : Byte) : zext16 b = BitVec.ofNat 16 b.toNat := by
  apply BitVec.eq_of_toNat_eq
  rw [zext16_toNat, BitVec.toNat_ofNat, Nat.mod_eq_of_lt (by have := b.isLt; omega)]

theorem bigEndian16_toNat (b0 b1 : Byte) : (bigEndian16 b0 b1).toNat = b0.toNat * 256 + b1.toNat := by
  simp only [bigEndian16, BitVec.toNat_append]
  rw [← Nat.shiftLeft_add_eq_or_of_lt b1.isLt, Nat.shiftLeft_eq]

theorem bigEndian16_eq (b0 b1 : Byte) : bigEndian16 b0 b1 = BitVec.ofNat 16 (b0.toNat * 256 + b1.toNat) := by
  apply BitVec.eq_of_toNat_eq
  have := b0.isLt
  have := b1.isLt
  rw [bigEndian16_toNat, BitVec.toNat_ofNat, Nat.mod_eq_of_lt (by omega)]

theorem hi4_toNat (b : Byte) : (hi4 b).toNat = b.toNat / 16 := by
  have := b.isLt
  simp only [hi4, BitVec.extractLsb'_toNat, Nat.shiftRight_eq_div_pow]
  omega

theorem lo4_toNat (b : Byte) : (lo4 b).toNat = b.toNat % 16 := by
  simp [lo4]

/-- `RBUF` after a write: the bytes written, then the bytes it held. -/
theorem writeRbuf_getElem (buf : Vector Byte 48) (bs : List Byte) (i : Nat) (hi : i < 48) :
    (writeRbuf buf bs)[i] = if h : i < bs.length then bs[i] else buf[i] := by
  unfold writeRbuf
  simp only [Vector.getElem_mk, List.getElem_toArray, List.getElem_take]
  split
  · next h => rw [List.getElem_append_left h]
  · next h =>
    rw [List.getElem_append_right (by omega)]
    simp only [List.getElem_drop, Vector.getElem_toList]
    congr 1
    omega

theorem setBit_getLsbD (m : Half) (i j : Nat) (v : Bool) (hj : j < 16) :
    (setBit m i v).getLsbD j = if j = i then v else m.getLsbD j := by
  unfold setBit
  by_cases hji : j = i
  · subst hji
    cases v <;> simp [hj]
  · rw [if_neg hji]
    cases v
    · rcases Nat.lt_or_ge j i with h | h
      · simp [hj, h]
      · have h1 : ¬ j < i := by omega
        have : j - i ≠ 0 := by omega
        simp [hj, h1, this]
    · rcases Nat.lt_or_ge j i with h | h
      · simp [hj, h]
      · have h1 : ¬ j < i := by omega
        have : j - i ≠ 0 := by omega
        simp [hj, h1, this]

/-- `RMASK` after the mask of a text: the bits of its bytes, then the bits it held. -/
theorem maskText_getLsbD (p : Params) (bs : List Byte) (i : Nat) (m : Half) (j : Nat) (hj : j < 16) :
    (maskText p bs i m).getLsbD j =
      if h : i ≤ j ∧ j < i + bs.length then !p.isDecodable (bs[j - i]'(by omega)) else m.getLsbD j := by
  induction bs generalizing i m with
  | nil => simp [maskText]
  | cons b bs ih =>
    simp only [maskText, ih, setBit_getLsbD _ _ _ _ hj, List.length_cons]
    by_cases h1 : j = i
    · subst h1
      simp
    · by_cases h2 : i + 1 ≤ j ∧ j < i + 1 + bs.length
      · rw [dif_pos h2, dif_pos (by omega)]
        congr 2
        have : j - i = (j - (i + 1)) + 1 := by omega
        simp [this]
      · rw [dif_neg h2, if_neg h1, dif_neg (by omega)]

/-! ## Decoding -/

@[simp] theorem decodeByte_opcode (i : Instr) : decodeByte (opcode i) = .ok i := by
  cases i <;> rfl

theorem decodeByte_cases (c : Byte) :
    (∃ i, decodeByte c = .ok i ∧ c = opcode i) ∨ decodeByte c = .error (.illegalCommand c) := by
  unfold decodeByte
  cases h : opcodeTable.find? (fun row => row.1 == c) with
  | none => exact .inr rfl
  | some row =>
    refine .inl ⟨row.2, rfl, ?_⟩
    have hm := List.mem_of_find?_eq_some h
    have hc : row.1 = c := by simpa using List.find?_some h
    have hrow : row.1 = opcode row.2 := by
      simp only [opcodeTable, List.mem_cons, List.not_mem_nil, or_false] at hm
      rcases hm with h | h | h | h | h | h | h | h | h | h | h | h | h | h <;> rw [h] <;> rfl
    exact hc.symm.trans hrow

theorem opcode_injective {i j : Instr} (h : opcode i = opcode j) : i = j := by
  have := decodeByte_opcode i
  rw [h, decodeByte_opcode] at this
  exact (Except.ok.inj this).symm

/-! ## Issue -/

theorem issue_busy {r : Regs} (h : r.status.busy = true) (c : Byte) (len : Nat) : issue c len r = r := by
  simp [issue, h]

theorem issue_illegal {r : Regs} (h : r.status.busy = false) {c : Byte} {e : Reject}
    (hc : decodeByte c = .error e) (len : Nat) :
    issue c len r = raiseFault .illegalCommand (Regs.cleared c) := by
  simp [issue, h, hc, clear_eq, Regs.cleared]

theorem issue_short {r : Regs} (h : r.status.busy = false) {c : Byte} {i : Instr} (hc : decodeByte c = .ok i)
    {len : Nat} (hl : len < 0x0150) : issue c len r = raiseFault .inputTooShort (Regs.cleared c) := by
  simp [issue, h, hc, clear_eq, Regs.cleared, Layout.minLen, hl]

theorem issue_start {r : Regs} (h : r.status.busy = false) {c : Byte} {i : Instr} (hc : decodeByte c = .ok i)
    {len : Nat} (hl : 0x0150 ≤ len) :
    issue c len r =
      { Regs.cleared c with status := { Status.zero with busy := true }, addr := startAddr i } := by
  simp [issue, h, hc, clear_eq, Regs.cleared, Layout.minLen, Nat.not_lt.2 hl]

/-- An accepted issue forgets everything the registers held (R20, R25). -/
theorem issue_forgets {r r' : Regs} (h : r.status.busy = false) (h' : r'.status.busy = false) (c : Byte) (len : Nat) :
    issue c len r = issue c len r' := by
  simp [issue, h, h', clear_eq, Regs.cleared]

/-! ## The meanings on an image that is long enough -/

section meanings

variable {s : State}

theorem exec_rawField {a : Nat} (h : a < s.inp.image.len) :
    rawField a s = finish s { s.regs with res := zext16 (s.inp.image.byte a) } :=
  withByte_of_lt h _

theorem exec_lookupField {a : Nat} (h : a < s.inp.image.len) (t : Table Byte) :
    lookupField a t s =
      finish s (lookupLabel (t.get (s.inp.image.byte a)) { s.regs with res := zext16 (s.inp.image.byte a) }) :=
  withByte_of_lt h _

variable (h : 0x0150 ≤ s.inp.image.len)
include h

theorem exec_title :
    exec .title s =
      finish s
        (markText s.par ((List.range 16).map fun i => s.inp.image.byte (0x0134 + i))
          (placeText ((List.range 16).map fun i => s.inp.image.byte (0x0134 + i)) s.regs)) :=
  withSlice_of_le (by simp [Layout.title, Layout.Range.size]; omega) _

theorem exec_manuf :
    exec .manuf s =
      (let bs := (List.range 4).map fun i => s.inp.image.byte (0x013F + i)
       if allZero bs then finish s { placeText bs s.regs with status := { s.regs.status with na := true } }
       else finish s (markText s.par bs (placeText bs s.regs))) :=
  withSlice_of_le (by simp [Layout.manuf, Layout.Range.size]; omega) _

theorem exec_publisher :
    exec .publisher s =
      if s.inp.image.byte 0x014B = 0x33 then
        finish s (newPublisher s (s.inp.image.byte 0x0144) (s.inp.image.byte 0x0145))
      else finish s (oldPublisher s (s.inp.image.byte 0x014B)) := by
  show execPublisher s = _
  unfold execPublisher
  rw [withByte_of_lt (by simp [Layout.oldPub]; omega)]
  split
  · rw [withByte_of_lt (by simp [Layout.newPub]; omega), withByte_of_lt (by simp [Layout.newPub]; omega)]
    simp_all [Layout.oldPub, Layout.sentinel, Layout.newPub]
  · simp_all [Layout.oldPub, Layout.sentinel]

theorem exec_logoChk :
    exec .logoChk s =
      (let bs := (List.range 48).map fun i => s.inp.image.byte (0x0104 + i)
       finish s
        { s.regs with
          rbuf := writeRbuf s.regs.rbuf bs
          rlen := 48
          status := { s.regs.status with pass := logoMatches bs s.inp.refLogo } }) :=
  withSlice_of_le (by simp [Layout.logo, Layout.Range.size]; omega) _

theorem exec_logoRender :
    exec .logoRender s =
      finish s
        { s.regs with
          rbuf :=
            writeRbuf s.regs.rbuf (renderLogo ((List.range 48).map fun i => s.inp.image.byte (0x0104 + i)))
          rlen := 48 } :=
  withSlice_of_le (by simp [Layout.logo, Layout.Range.size]; omega) _

theorem exec_hdrChk_accumulating (ha : s.regs.addr ≤ 0x014C) :
    exec .hdrChk s =
      goOn s
        { s.regs with
          acc8 := hdrUpdate s.regs.acc8 (s.inp.image.byte s.regs.addr), addr := s.regs.addr + 1 } := by
  show execHdrChk s = _
  unfold execHdrChk
  rw [if_pos (by simpa [Layout.hdrRange] using ha), withByte_of_lt (by omega)]

theorem exec_hdrChk_completing (ha : 0x014C < s.regs.addr) :
    exec .hdrChk s =
      finish s
        { s.regs with
          res := zext16 s.regs.acc8
          tgt := zext16 (s.inp.image.byte 0x014D)
          status := { s.regs.status with pass := hdrVerdict s.regs.acc8 (s.inp.image.byte 0x014D) } } := by
  show execHdrChk s = _
  unfold execHdrChk
  rw [if_neg (by simpa [Layout.hdrRange] using ha), withByte_of_lt (by simp [Layout.hdrSum]; omega)]
  rfl

omit h in
theorem exec_glbChk_reading (ha : s.regs.addr < s.inp.image.len) :
    exec .glbChk s =
      goOn s
        { s.regs with
          sum16 :=
            if excluded s.regs.addr then s.regs.sum16
            else glbUpdate s.regs.sum16 (s.inp.image.byte s.regs.addr)
          addr := s.regs.addr + 1 } := by
  show execGlbChk s = _
  unfold execGlbChk
  rw [if_pos ha]
  split
  · rfl
  · rw [withByte_of_lt ha]

theorem exec_glbChk_completing (ha : s.inp.image.len ≤ s.regs.addr) :
    exec .glbChk s =
      (let t := bigEndian16 (s.inp.image.byte 0x014E) (s.inp.image.byte 0x014F)
       finish s
        { s.regs with
          res := s.regs.sum16
          tgt := t
          status := { s.regs.status with pass := glbVerdict s.regs.sum16 t } }) := by
  show execGlbChk s = _
  unfold execGlbChk
  rw [if_neg (by omega), withTarget16_of_le h]

end meanings

/-- Every meaning only writes registers: a next state differs from the state in `regs` alone. -/
theorem exec_next {i : Instr} {s t : State} (h : exec i s = .next t) : t = s.withRegs t.regs := by
  have hb : ∀ {a : Nat} {k : Byte → Result}, (∀ b, k b = .next t → t = s.withRegs t.regs) →
      withByte s a k = .next t → t = s.withRegs t.regs := by
    intro a k hk hw
    unfold withByte at hw
    split at hw
    · exact hk _ hw
    · cases hw
  have hs : ∀ {a n : Nat} {k : List Byte → Result}, (∀ b, k b = .next t → t = s.withRegs t.regs) →
      withSlice s a n k = .next t → t = s.withRegs t.regs := by
    intro a n k hk hw
    unfold withSlice at hw
    split at hw
    · exact hk _ hw
    · cases hw
  have hg : ∀ {r : Regs}, goOn s r = .next t → t = s.withRegs t.regs := by
    intro r hr
    cases hr
    rfl
  have hf : ∀ {r : Regs}, finish s r = .next t → t = s.withRegs t.regs := hg
  cases i with
  | logoChk => exact hs (fun _ => hf) h
  | title => exact hs (fun _ => hf) h
  | manuf =>
    refine hs (fun bs hk => ?_) h
    split at hk
    · exact hf hk
    · exact hf hk
  | cgb => exact hb (fun _ => hf) h
  | sgb => exact hb (fun _ => hf) h
  | publisher =>
    refine hb (fun old hk => ?_) h
    split at hk
    · exact hb (fun _ hk => hb (fun _ => hf) hk) hk
    · exact hf hk
  | cart => exact hb (fun _ => hf) h
  | romsz => exact hb (fun _ => hf) h
  | ramsz => exact hb (fun _ => hf) h
  | dest => exact hb (fun _ => hf) h
  | maskver => exact hb (fun _ => hf) h
  | hdrChk =>
    simp only [exec, execHdrChk] at h
    split at h
    · exact hb (fun _ => hg) h
    · exact hb (fun _ => hf) h
  | glbChk =>
    simp only [exec, execGlbChk] at h
    split at h
    · split at h
      · exact hg h
      · exact hb (fun _ => hg) h
    · exact hb (fun _ hk => hb (fun _ => hf) hk) h
  | logoRender => exact hs (fun _ => hf) h

/-! ## Turns -/

theorem blockTurn_idle {s : State} (h : s.regs.status.busy = false) : blockTurn s = .next s := by
  simp [blockTurn, h]

theorem blockTurn_running {s : State} (h : s.regs.status.busy = true) {i : Instr} (hi : s.regs.op = opcode i) :
    blockTurn s = exec i s := by
  simp [blockTurn, h, commandBytes, decodeBytes, hi]

/-- Everything a block's turn can do when it answers a next state. -/
theorem blockTurn_next {s t : State} (h : blockTurn s = .next t) :
    (s.regs.status.busy = false ∧ t = s) ∨
    (s.regs.status.busy = true ∧ ∃ i, s.regs.op = opcode i ∧ exec i s = .next t) := by
  cases hb : s.regs.status.busy with
  | false =>
    rw [blockTurn_idle hb] at h
    exact .inl ⟨rfl, by cases h; rfl⟩
  | true =>
    rcases decodeByte_cases s.regs.op with ⟨i, -, hi⟩ | he
    · rw [blockTurn_running hb hi] at h
      exact .inr ⟨rfl, i, hi, h⟩
    · simp [blockTurn, hb, commandBytes, decodeBytes, he] at h

/-- Everything a step can do when it answers a next state. -/
theorem step_next {s t : State} (h : step s = .next t) :
    (∃ ts, (s.script = [] ∧ ts = [] ∨ s.script = .exec :: ts ∨
        (∃ us, (s.script = .awaitIdle :: us ∨ s.script = .awaitDone :: us) ∧ ts = s.script)) ∧
        blockTurn { s with script := ts } = .next t) ∨
    (∃ ts, ((s.script = .awaitIdle :: ts ∧ s.regs.status.busy = false) ∨
        (s.script = .awaitDone :: ts ∧ s.regs.status.done = true)) ∧ t = { s with script := ts }) ∨
    (∃ c ts, s.script = .issue c :: ts ∧
      t = { s with script := ts, regs := issue c s.inp.image.len s.regs }) ∨
    (∃ r ts, s.script = .read r :: ts ∧ t = { s with script := ts, lastRead := some (r, readReg r s.regs) }) ∨
    (∃ ts, s.script = .reset :: ts ∧ t = { s with script := ts, regs := Regs.cleared 0 }) ∨
    (∃ x ts, s.script = .present x :: ts ∧ x.wf s.par = true ∧ (s.regs.status.busy = true → x = s.inp) ∧
      t = { s with script := ts, inp := x }) := by
  obtain ⟨par, inp, regs, script, lastRead⟩ := s
  unfold step takeTurn at h
  cases script with
  | nil => exact .inl ⟨[], .inl ⟨rfl, rfl⟩, h⟩
  | cons turn ts =>
    cases turn with
    | issue c => cases h; exact .inr (.inr (.inl ⟨c, ts, rfl, rfl⟩))
    | read r => cases h; exact .inr (.inr (.inr (.inl ⟨r, ts, rfl, rfl⟩)))
    | reset => cases h; exact .inr (.inr (.inr (.inr (.inl ⟨ts, rfl, rfl⟩))))
    | present x =>
      refine .inr (.inr (.inr (.inr (.inr ⟨x, ts, rfl, ?_⟩))))
      simp only [presentInputs] at h
      split at h
      · cases h
      · next hb =>
        split at h
        · next hw =>
          cases h
          refine ⟨hw, fun hbusy => ?_, rfl⟩
          by_contra hne
          exact hb ⟨hbusy, hne⟩
        · cases h
    | exec => exact .inl ⟨ts, .inr (.inl rfl), h⟩
    | awaitIdle =>
      simp only at h
      split at h
      · exact .inl ⟨_, .inr (.inr ⟨ts, .inl rfl, rfl⟩), h⟩
      · next hb =>
        cases h
        exact .inr (.inl ⟨ts, .inl ⟨rfl, by simpa using hb⟩, rfl⟩)
    | awaitDone =>
      simp only at h
      split at h
      · next hd =>
        cases h
        exact .inr (.inl ⟨ts, .inr ⟨rfl, hd⟩, rfl⟩)
      · exact .inl ⟨_, .inr (.inr ⟨ts, .inr rfl, rfl⟩), h⟩

end Sys2Proof.Machine
end

