-- ==== Sys2Proof/Laws/Invariant.lean ====
section
/-! SUPPORT. Small lemmas about the invariant of Safety.lean. -/

namespace Sys2Proof.Machine

/-- The invariant does not look at the script nor at what was read last. -/
theorem Inv.withTurns {s : State} (h : Inv s) (ts : List Turn) (l : Option (Reg × RegValue)) :
    Inv { s with script := ts, lastRead := l } where
  par_ok := h.par_ok
  inp_ok := h.inp_ok
  status_ok := h.status_ok
  running hb := by
    obtain ⟨i, hr⟩ := h.running hb
    exact ⟨i, hr.op_eq, hr.long, hr.cleared, hr.progress⟩
  faulted := h.faulted
  fresh := h.fresh
  addr_fits := h.addr_fits
  rlen_le := h.rlen_le

/-- A state at the end of a command without a fault meets the invariant when its fields fit. -/
theorem Inv.of_done {s : State} (hp : s.par.wf = true) (hx : s.inp.wf s.par = true)
    (hb : s.regs.status.busy = false) (hd : s.regs.status.done = true) (hf : s.regs.status.fault = false)
    (hc : s.regs.status.fcode = .none) (hm : s.regs.status.degr = true ↔ s.regs.rmask ≠ 0)
    (hu : s.regs.status.unk = true → s.regs.label = .unknown) (ha : s.regs.addr < 2 ^ s.par.aw)
    (hr : s.regs.rlen.toNat ≤ 48) : Inv s where
  par_ok := hp
  inp_ok := hx
  status_ok := ⟨by simp [hb], by simp [hf], fun _ => hc, hm, hu⟩
  running := by simp [hb]
  faulted := by simp [hf]
  fresh := by simp [hd]
  addr_fits := ha
  rlen_le := hr

end Sys2Proof.Machine
end

