-- ==== Sys2Proof/Laws/PerInstr.lean ====
section
/-! SUPPORT. The per-instruction family `EncodedForm`: every command is well formed and its word is one legal byte
(spec/30_encoding.md R60, R62). -/

namespace Sys2Proof.Laws.EncodedForm

/-- The command is well formed and is encoded as one byte, which is a legal command word. -/
def Statement (i : Instr) : Prop :=
  i.wellFormed = true ∧ ∃ c : Byte, encode i = [c] ∧ commandWordOk c = true

theorem logoChk : Statement .logoChk := ⟨rfl, 0x01, rfl, rfl⟩
theorem title : Statement .title := ⟨rfl, 0x02, rfl, rfl⟩
theorem manuf : Statement .manuf := ⟨rfl, 0x03, rfl, rfl⟩
theorem cgb : Statement .cgb := ⟨rfl, 0x04, rfl, rfl⟩
theorem sgb : Statement .sgb := ⟨rfl, 0x05, rfl, rfl⟩
theorem publisher : Statement .publisher := ⟨rfl, 0x06, rfl, rfl⟩
theorem cart : Statement .cart := ⟨rfl, 0x07, rfl, rfl⟩
theorem romsz : Statement .romsz := ⟨rfl, 0x08, rfl, rfl⟩
theorem ramsz : Statement .ramsz := ⟨rfl, 0x09, rfl, rfl⟩
theorem dest : Statement .dest := ⟨rfl, 0x0A, rfl, rfl⟩
theorem maskver : Statement .maskver := ⟨rfl, 0x0B, rfl, rfl⟩
theorem hdrChk : Statement .hdrChk := ⟨rfl, 0x0C, rfl, rfl⟩
theorem glbChk : Statement .glbChk := ⟨rfl, 0x0D, rfl, rfl⟩
theorem logoRender : Statement .logoRender := ⟨rfl, 0x0E, rfl, rfl⟩

end Sys2Proof.Laws.EncodedForm
end

