-- ==== Sys2Proof/Laws/Report.lean ====
section
/-! SUPPORT. What the functions of the presentation layer answer. -/

namespace Sys2Proof.Machine

/-- The default `HEXFMT` has upper-case digits only. -/
theorem hex2_upper (b : Byte) : (hex2 b).map Char.toUpper = hex2 b := by
  have hd : ∀ n : BitVec 4, (hexDigit n).toUpper = hexDigit n := by decide
  simp [hex2, hd]

/-- A presentation with the default `HEXFMT` and a replacement character of its own is admissible. -/
theorem Presentation.admissible_of_default {pr : Presentation} {p : Params} (hx : pr.hexfmt = hex2)
    (hr : ∀ b, p.isDecodable b = true → charOf b ≠ pr.repl) : pr.Admissible p :=
  ⟨⟨[], fun b => ⟨hex2 b, by rw [hx]; rfl, hex2_upper b⟩⟩, hr⟩

/-- `Text(bytes, mask)` character by character (R162). -/
theorem Presentation.text_eq_map (pr : Presentation) (bs : List Byte) (mask : Half) (i : Nat) :
    pr.text bs mask i =
      (bs.zipIdx i).map fun x => if mask.getLsbD x.2 then pr.repl else charOf x.1 := by
  induction bs generalizing i with
  | nil => rfl
  | cons b bs ih => simp [Presentation.text, ih]

/-- A line of the logo grid has 48 characters (R171). -/
@[simp] theorem gridLine_length (pr : Presentation) (r : Regs) (y : Nat) : (gridLine pr r y).length = 48 := by
  simp [gridLine]

/-- Where results are valid, a report is defined (R160). -/
theorem report_of_valid (pr : Presentation) (i : Instr) {r : Regs} (h : r.status.done = true ∧ r.status.fault = false) :
    report pr i r = some (reportText pr i r) := by
  simp [report, h.1, h.2]

end Sys2Proof.Machine
end

