-- ==== Sys2Proof/Laws/Runs.lean ====
section
/-! SUPPORT. Runs of one command: a run is an issue followed by Exec steps, taken one at a time. -/

namespace Sys2Proof.Machine

/-- A run of `a + b` steps is a run of `a` steps and then one of `b`. -/
theorem run_add {M : Host.Core} (a b : Nat) {x y : M.State} (h : M.run a x = .next y) :
    M.run (a + b) x = M.run b y := by
  induction a generalizing x with
  | zero =>
    have := Host.Outcome.next.inj h
    rw [Nat.zero_add, this]
  | succ a ih =>
    rw [Nat.add_right_comm]
    simp only [Host.Core.run] at h ⊢
    split at h
    · exact ih h
    · cases h
    · cases h

/-- `n` of the block's turns from `s` leave the registers `r`, and nothing else changes. -/
def Execs (s : State) (n : Nat) (r : Regs) : Prop :=
  ∀ ts, Host.Core.run Sys2Proof.core n { s with script := List.replicate n .exec ++ ts } =
    .next { s with script := ts, regs := r }

theorem runs_iff_execs {s : State} {c : Byte} {n : Nat} {r : Regs} :
    Runs s c n r ↔ Execs { s with regs := issue c s.inp.image.len s.regs } n r := Iff.rfl

theorem execs_zero {s : State} {r : Regs} : Execs s 0 r ↔ r = s.regs := by
  constructor
  · intro h
    have := h []
    simp only [Host.Core.run, List.replicate, List.nil_append] at this
    have := Host.Outcome.next.inj this
    simpa using (congrArg State.regs this).symm
  · rintro rfl ts
    rfl

/-- A meaning does not look at the script: it writes the same registers whatever the script is. -/
theorem exec_script {i : Instr} {s : State} {r : Regs} (h : exec i s = .next (s.withRegs r)) (ts : List Turn) :
    exec i { s with script := ts } = .next ({ s with script := ts }.withRegs r) := by
  have hb : ∀ {a : Nat} {k k' : Byte → Result}, withByte s a k = .next (s.withRegs r) →
      (∀ b, k b = .next (s.withRegs r) → k' b = .next ({ s with script := ts }.withRegs r)) →
      withByte { s with script := ts } a k' = .next ({ s with script := ts }.withRegs r) := by
    intro a k k' hw hk
    unfold withByte at hw ⊢
    split at hw
    · next b hm => simp only [hm]; exact hk b hw
    · cases hw
  have hs : ∀ {a n : Nat} {k k' : List Byte → Result}, withSlice s a n k = .next (s.withRegs r) →
      (∀ b, k b = .next (s.withRegs r) → k' b = .next ({ s with script := ts }.withRegs r)) →
      withSlice { s with script := ts } a n k' = .next ({ s with script := ts }.withRegs r) := by
    intro a n k k' hw hk
    unfold withSlice at hw ⊢
    split at hw
    · next b hm => simp only [hm]; exact hk b hw
    · cases hw
  have hg : ∀ {r' : Regs}, goOn s r' = .next (s.withRegs r) →
      goOn { s with script := ts } r' = .next ({ s with script := ts }.withRegs r) := by
    intro r' hr
    have : r' = r := by
      have := Host.Outcome.next.inj hr
      simpa using congrArg State.regs this
    rw [this]
    rfl
  have hf : ∀ {r' : Regs}, finish s r' = .next (s.withRegs r) →
      finish { s with script := ts } r' = .next ({ s with script := ts }.withRegs r) := hg
  cases i with
  | logoChk => exact hs h fun _ => hf
  | title => exact hs h fun _ => hf
  | manuf =>
    refine hs h fun bs hk => ?_
    split at hk
    · next hz => simp only [hz, if_true]; exact hf hk
    · next hz => simp only [hz]; exact hf hk
  | cgb => exact hb h fun _ => hf
  | sgb => exact hb h fun _ => hf
  | publisher =>
    refine hb h fun old hk => ?_
    split at hk
    · next hz =>
      simp only [hz, if_true]
      exact hb hk fun _ hk => hb hk fun _ => hf
    · next hz => simp only [hz]; exact hf hk
  | cart => exact hb h fun _ => hf
  | romsz => exact hb h fun _ => hf
  | ramsz => exact hb h fun _ => hf
  | dest => exact hb h fun _ => hf
  | maskver => exact hb h fun _ => hf
  | hdrChk =>
    simp only [exec, execHdrChk] at h ⊢
    split at h
    · next hz => rw [if_pos hz]; exact hb h fun _ => hg
    · next hz => rw [if_neg hz]; exact hb h fun _ => hf
  | glbChk =>
    simp only [exec, execGlbChk] at h ⊢
    split at h
    · next hz =>
      rw [if_pos hz]
      split at h
      · next hx => rw [if_pos hx]; exact hg h
      · next hx => rw [if_neg hx]; exact hb h fun _ => hg
    · next hz => rw [if_neg hz]; exact hb h fun _ hk => hb hk fun _ => hf
  | logoRender => exact hs h fun _ => hf

/-- One Exec step of the command in progress, then the rest of the run. -/
theorem Execs.step {s : State} {i : Instr} {r1 r2 : Regs} {n : Nat} (hb : s.regs.status.busy = true)
    (hi : s.regs.op = opcode i) (he : exec i s = .next (s.withRegs r1)) (h : Execs { s with regs := r1 } n r2) :
    Execs s (n + 1) r2 := by
  intro ts
  have hstep : Sys2Proof.core.step { s with script := List.replicate (n + 1) .exec ++ ts } =
      .next { s with script := List.replicate n .exec ++ ts, regs := r1 } := by
    show blockTurn { s with script := List.replicate n .exec ++ ts } = _
    rw [blockTurn_running (s := { s with script := List.replicate n .exec ++ ts }) hb hi, exec_script he]
    rfl
  simp only [Host.Core.run, hstep]
  exact h ts

/-- Two runs of the block one after the other. -/
theorem Execs.trans {s : State} {r1 r2 : Regs} {n m : Nat} (h1 : Execs s n r1)
    (h2 : Execs { s with regs := r1 } m r2) : Execs s (n + m) r2 := by
  intro ts
  rw [show List.replicate (n + m) Turn.exec ++ ts = List.replicate n .exec ++ (List.replicate m .exec ++ ts) by
    rw [List.replicate_add, List.append_assoc]]
  exact (run_add n m (h1 (List.replicate m .exec ++ ts))).trans (h2 ts)

/-- The registers at the end of a run are determined by its start. -/
theorem Runs.unique {s : State} {c : Byte} {n : Nat} {r r' : Regs} (h : Runs s c n r) (h' : Runs s c n r') :
    r = r' := by
  have h := h []
  rw [h' []] at h
  simpa using (congrArg State.regs (Host.Outcome.next.inj h)).symm

/-- A command of one Exec step: issue, then its meaning on the state the issue made. -/
theorem runs_single {s : State} {i : Instr} {r : Regs} (hb : s.regs.status.busy = false)
    (hl : 0x0150 ≤ s.inp.image.len)
    (he : exec i (s.withRegs (issue (opcode i) s.inp.image.len s.regs)) =
      .next ((s.withRegs (issue (opcode i) s.inp.image.len s.regs)).withRegs r)) :
    Runs s (opcode i) 1 r := by
  rw [runs_iff_execs]
  have hi := issue_start hb (decodeByte_opcode i) hl
  refine Execs.step (i := i) (r1 := r) ?_ ?_ he (execs_zero.2 rfl)
  · rw [hi]
  · rw [hi]; rfl

/-- `HDR_CHK`, once started, runs to an end from wherever its index stands. -/
theorem exists_execs_hdrChk (k : Nat) {s : State} (hb : s.regs.status.busy = true) (hi : s.regs.op = opcode .hdrChk)
    (hl : 0x0150 ≤ s.inp.image.len) (hk : s.regs.addr + k = 0x014D) : ∃ r, Execs s (k + 1) r := by
  induction k generalizing s with
  | zero => exact ⟨_, Execs.step hb hi (exec_hdrChk_completing hl (by omega)) (execs_zero.2 rfl)⟩
  | succ k ih =>
    obtain ⟨r, hr⟩ := ih (s := { s with
        regs :=
          { s.regs with
            acc8 := hdrUpdate s.regs.acc8 (s.inp.image.byte s.regs.addr), addr := s.regs.addr + 1 } })
      hb hi hl (by simp only; omega)
    exact ⟨r, Execs.step hb hi (exec_hdrChk_accumulating hl (by omega)) hr⟩

/-- `GLB_CHK`, once started, runs to an end from wherever its index stands. -/
theorem exists_execs_glbChk (k : Nat) {s : State} (hb : s.regs.status.busy = true) (hi : s.regs.op = opcode .glbChk)
    (hl : 0x0150 ≤ s.inp.image.len) (hk : s.regs.addr + k = s.inp.image.len) : ∃ r, Execs s (k + 1) r := by
  induction k generalizing s with
  | zero => exact ⟨_, Execs.step hb hi (exec_glbChk_completing hl (by omega)) (execs_zero.2 rfl)⟩
  | succ k ih =>
    obtain ⟨r, hr⟩ := ih (s := { s with
        regs :=
          { s.regs with
            sum16 :=
              if excluded s.regs.addr then s.regs.sum16
              else glbUpdate s.regs.sum16 (s.inp.image.byte s.regs.addr)
            addr := s.regs.addr + 1 } })
      hb hi hl (by simp only; omega)
    exact ⟨r, Execs.step hb hi (exec_glbChk_reading (by omega)) hr⟩

theorem exists_runs_hdrChk {s : State} (hb : s.regs.status.busy = false) (hl : 0x0150 ≤ s.inp.image.len) :
    ∃ r, Runs s 0x0C 26 r := by
  have hi := issue_start hb (decodeByte_opcode .hdrChk) hl
  refine exists_execs_hdrChk 25 (s := { s with regs := issue 0x0C s.inp.image.len s.regs }) ?_ ?_ hl ?_ <;>
    simp only [show (0x0C : Byte) = opcode .hdrChk from rfl, hi] <;> rfl

theorem exists_runs_glbChk {s : State} (hb : s.regs.status.busy = false) (hl : 0x0150 ≤ s.inp.image.len) :
    ∃ r, Runs s 0x0D (s.inp.image.len + 1) r := by
  have hi := issue_start hb (decodeByte_opcode .glbChk) hl
  refine exists_execs_glbChk s.inp.image.len (s := { s with regs := issue 0x0D s.inp.image.len s.regs }) ?_ ?_ hl ?_
  · simp only [show (0x0D : Byte) = opcode .glbChk from rfl, hi]
  · simp only [show (0x0D : Byte) = opcode .glbChk from rfl, hi]
    rfl
  · simp only [show (0x0D : Byte) = opcode .glbChk from rfl, hi, startAddr]
    omega

end Sys2Proof.Machine
end

