-- ==== Sys2Proof/Tests/Slice0.lean ====
section
/-! SUPPORT. The model's own tests. Expected values are those of spec/95_test_vectors.md (the vector is named in each
docstring) or are worked from the rule named there by hand; none was taken from the model. The last part gives, for
every statement with hypotheses, concrete values that meet them. -/

namespace Sys2Proof.Tests

open Sys2Proof.Machine

/-! ## States for the tests -/

/-- An image of 0x150 bytes with these bytes and zeros elsewhere. -/
def image (cells : List Host.Cell) : Memory := { cells := cells, len := 0x0150 }

/-- The test tables of spec/95_test_vectors.md, with one-letter labels. -/
def inputs (m : Memory) : Inputs where
  image := m
  refLogo := Vector.replicate 48 0
  tOldPub := [(0x01, ['O'])]
  tNewPub := [((0x30, 0x31), ['N'])]
  tCart := [(0x00, ['C'])]
  tRomSz := [(0x00, ['R'])]
  tRamSz := [(0x00, ['A'])]
  tDest := [(0x00, ['D']), (0x01, ['E'])]

/-- The reset state with an image presented. -/
def idle (m : Memory) : State := { State.reset with inp := inputs m }

/-- The state after the issue of a command word. -/
def issued (c : Byte) (m : Memory) : State := { idle m with regs := issue c m.len State.reset.regs }

/-- What a step left in the registers. -/
def regsOf : Result → Option Regs
  | .next t => some t.regs
  | .fault _ => none
  | .refused _ => none

/-- `STATUS`, `RES`, `TGT` and the label after the first Exec step of a command. -/
def outcome (i : Instr) (m : Memory) : Option (Half × Half × Half × Label) :=
  (regsOf (exec i (issued (opcode i) m))).map fun r => (r.status.word, r.res, r.tgt, r.label)

/-- `STATUS`, `RLEN`, `RMASK` and `n` bytes of `RBUF` from `k` on after the first Exec step of a command. -/
def text (i : Instr) (m : Memory) (k n : Nat) : Option (Half × BitVec 6 × Half × List Byte) :=
  (regsOf (exec i (issued (opcode i) m))).map fun r =>
    (r.status.word, r.rlen, r.rmask, (r.rbuf.toList.drop k).take n)

/-! ## Well-formedness: each check refuses an ill-formed term -/

theorem test_word_zero_is_ill_formed : commandWordOk 0x00 = false := by decide
theorem test_word_0F_is_ill_formed : commandWordOk 0x0F = false := by decide
theorem test_every_command_is_well_formed : Instr.wellFormed .hdrChk = true := by decide
theorem test_unsorted_image_is_ill_formed : (image [(0x0104, 0x01), (0x0000, 0x01)]).wf = false := by decide
theorem test_listed_zero_is_ill_formed : (image [(0x0104, 0x00)]).wf = false := by decide
theorem test_listed_beyond_length_is_ill_formed : (image [(0x0150, 0x01)]).wf = false := by decide
theorem test_unsorted_table_is_ill_formed :
    Table.wf BitVec.toNat ([(0x01, []), (0x00, [])] : Table Byte) = false := by decide
theorem test_repeated_key_is_ill_formed :
    Table.wf newPubKey ([((0x30, 0x31), []), ((0x30, 0x31), [])] : Table (Byte × Byte)) = false := by decide
theorem test_narrow_address_is_ill_formed :
    Params.wf { aw := 8, decodable := Config.defaultDecodable } = false := by decide
theorem test_undecodable_required_byte_is_ill_formed : Params.wf { aw := 9, decodable := 0 } = false := by decide
theorem test_image_longer_than_address_is_ill_formed :
    (inputs { cells := [], len := 0x0200 }).wf { aw := 9, decodable := Config.defaultDecodable } = false := by decide
theorem test_inputs_are_well_formed :
    (inputs (image [(0x0104, 0x01)])).wf { aw := 9, decodable := Config.defaultDecodable } = true := by decide

/-! ## Decoding: words written out bit by bit from R62 -/

theorem test_decode_logo : decodeByte 0b00000001 = .ok .logoChk ∧ decodeByte 0b00001110 = .ok .logoRender := by decide
theorem test_decode_text : decodeByte 0b00000010 = .ok .title ∧ decodeByte 0b00000011 = .ok .manuf := by decide
theorem test_decode_raw :
    decodeByte 0b00000100 = .ok .cgb ∧ decodeByte 0b00000101 = .ok .sgb ∧ decodeByte 0b00001011 = .ok .maskver := by
  decide
theorem test_decode_lookup :
    decodeByte 0b00000110 = .ok .publisher ∧ decodeByte 0b00000111 = .ok .cart ∧
    decodeByte 0b00001000 = .ok .romsz ∧ decodeByte 0b00001001 = .ok .ramsz ∧ decodeByte 0b00001010 = .ok .dest := by
  decide
theorem test_decode_checksums :
    decodeByte 0b00001100 = .ok .hdrChk ∧ decodeByte 0b00001101 = .ok .glbChk := by decide
theorem test_decode_refuses :
    decodeByte 0x00 = .error (.illegalCommand 0x00) ∧ decodeByte 0x0F = .error (.illegalCommand 0x0F) ∧
    decodeByte 0xFF = .error (.illegalCommand 0xFF) ∧ decodeByte 0x8C = .error (.illegalCommand 0x8C) := by decide
theorem test_decode_table_word : decodeTableWord 8 0x0C = some .hdrChk ∧ decodeTableWord 8 0x10C = none := by decide
/-- R68 and R70: a pseudo-command and a commented command, worked by hand. -/
theorem test_assemble_with_comment :
    assembleText ['M', 'I', 'N', 'I', 'M', 'A', 'L', '\n', 'C', 'G', 'B', ' ', ';', ' ', '0', '4'] =
      some [0x02, 0x01, 0x04] := by decide
theorem test_assemble_refuses_operand : assembleText ['C', 'G', 'B', ' ', '1'] = none := by decide

/-! ## The commands -/

/-- V26. -/
theorem test_cgb : outcome .cgb (image [(0x0143, 0x80), (0x0146, 0x03)]) = some (0x0002, 0x0080, 0, .unknown) := by
  decide
/-- V26: from 0x0146, not 0x0143. -/
theorem test_sgb : outcome .sgb (image [(0x0143, 0x80), (0x0146, 0x03)]) = some (0x0002, 0x0003, 0, .unknown) := by
  decide
/-- V26: zero-extended. -/
theorem test_maskver : outcome .maskver (image [(0x014C, 0xFF)]) = some (0x0002, 0x00FF, 0, .unknown) := by decide
/-- V21, first half: the undecodable byte is kept and masked. -/
theorem test_title_masks :
    text .title (image [(0x0134, 0x54), (0x0135, 0x45), (0x0136, 0xC9), (0x0137, 0x54)]) 0 5 =
      some (0x0042, 16, 0x0004, [0x54, 0x45, 0xC9, 0x54, 0x00]) := by decide
/-- V21, second half: the last byte of the title is the CGB flag. -/
theorem test_title_last_byte :
    text .title (image [(0x0143, 0x80)]) 15 2 = some (0x0042, 16, 0x8000, [0x80, 0x00]) := by decide
/-- V22. -/
theorem test_manuf_not_applicable : text .manuf (image [(0x013E, 0x01), (0x0143, 0x01)]) 0 4 =
    some (0x0012, 4, 0x0000, [0, 0, 0, 0]) := by decide
/-- V23, the last case. -/
theorem test_manuf_masks : text .manuf (image [(0x013F, 0x41), (0x0140, 0x80), (0x0142, 0xFF)]) 0 5 =
    some (0x0042, 4, 0x000A, [0x41, 0x80, 0x00, 0xFF, 0x00]) := by decide
/-- V52. -/
theorem test_publisher_new :
    outcome .publisher (image [(0x0144, 0x30), (0x0145, 0x31), (0x014B, 0x33)]) =
      some (0x0022, 0x3031, 0, .named ['N']) := by decide
/-- V54: undecodable, so no table is consulted. -/
theorem test_publisher_undecodable :
    outcome .publisher (image [(0x0144, 0x30), (0x0145, 0xB1), (0x014B, 0x33)]) =
      some (0x006A, 0x30B1, 0, .unknown) := by decide
/-- V50 and V55: the old branch, hit and miss. -/
theorem test_publisher_old :
    outcome .publisher (image [(0x014B, 0x01)]) = some (0x0002, 0x0001, 0, .named ['O']) ∧
    outcome .publisher (image [(0x0144, 0x30), (0x0145, 0x31), (0x014B, 0x32)]) =
      some (0x000A, 0x0032, 0, .unknown) := by decide
/-- V56 and V57. -/
theorem test_cart :
    outcome .cart (image []) = some (0x0002, 0x0000, 0, .named ['C']) ∧
    outcome .cart (image [(0x0147, 0xFC)]) = some (0x000A, 0x00FC, 0, .unknown) := by decide
/-- V58 and V59. -/
theorem test_romsz :
    outcome .romsz (image []) = some (0x0002, 0x0000, 0, .named ['R']) ∧
    outcome .romsz (image [(0x0148, 0x54)]) = some (0x000A, 0x0054, 0, .unknown) := by decide
/-- V60. -/
theorem test_ramsz : outcome .ramsz (image [(0x0149, 0x07)]) = some (0x000A, 0x0007, 0, .unknown) := by decide
/-- V61 and V62. -/
theorem test_dest :
    outcome .dest (image [(0x014A, 0x01)]) = some (0x0002, 0x0001, 0, .named ['E']) ∧
    outcome .dest (image [(0x014A, 0x02)]) = some (0x000A, 0x0002, 0, .unknown) := by decide
/-- V32: the verdict is relative to the reference logo, here 48 zero bytes. -/
theorem test_logo_pass : outcome .logoChk (image []) = some (0x0006, 0, 0, .unknown) := by decide
/-- V31: a changed byte in the last position fails and is delivered. -/
theorem test_logo_fail : text .logoChk (image [(0x0133, 0x01)]) 46 2 = some (0x0002, 48, 0, [0x00, 0x01]) := by decide
/-- V41: logo bytes 12 34, first bytes of rows 0 to 3. -/
theorem test_logo_render :
    text .logoRender (image [(0x0104, 0x12), (0x0105, 0x34)]) 0 24 =
      some (0x0002, 48, 0,
        [0x10, 0, 0, 0, 0, 0, 0x20, 0, 0, 0, 0, 0, 0x30, 0, 0, 0, 0, 0, 0x40, 0, 0, 0, 0, 0]) := by decide
/-- V40, rows 4 to 7, on the second half of the bytes of 93_implementation_defined.md U9. -/
theorem test_logo_render_second_block :
    (renderLogo
        (List.replicate 24 0 ++
          [0xDC, 0xCC, 0x6E, 0xE6, 0xDD, 0xDD, 0xD9, 0x99, 0xBB, 0xBB, 0x67, 0x63, 0x6E, 0x0E, 0xEC, 0xCC, 0xDD, 0xDC,
           0x99, 0x9F, 0xBB, 0xB9, 0x33, 0x3E])).drop 24 =
      [0xD6, 0xDD, 0xB6, 0x6E, 0xD9, 0xB3, 0xCE, 0xD9, 0xB7, 0xEC, 0xD9, 0xB3,
       0xCE, 0xD9, 0xB6, 0x0C, 0xD9, 0xB3, 0xC6, 0xD9, 0xB3, 0xEC, 0xCF, 0x9E] := by decide
/-- V73: the first Exec step of `HDR_CHK` on `IMG_T`. -/
theorem test_hdr_accumulates :
    (regsOf (exec .hdrChk (issued 0x0C (image [(0x0134, 0x54)])))).map (fun r => (r.status.word, r.acc8, r.addr)) =
      some (0x0001, 0xAB, 0x0135) := by decide
/-- V1: the completing step. -/
theorem test_hdr_completes :
    let s := issued 0x0C (image [(0x014D, 0x8C)])
    (regsOf (exec .hdrChk { s with regs := { s.regs with acc8 := 0x8C, addr := 0x014D } })).map
        (fun r => (r.status.word, r.res, r.tgt, r.acc8, r.addr)) =
      some (0x0006, 0x008C, 0x008C, 0x8C, 0x014D) := by decide
/-- V8: the update. -/
theorem test_hdr_update :
    hdrUpdate 0x00 0x00 = 0xFF ∧ hdrUpdate 0x00 0xFF = 0x00 ∧ hdrUpdate 0x10 0x10 = 0xFF ∧
    hdrUpdate 0xFF 0x00 = 0xFE ∧ hdrUpdate 0x80 0x7F = 0x00 ∧ hdrUpdate 0xAB 0x45 = 0x65 := by decide
/-- V16: the update wraps and zero-extends. -/
theorem test_glb_update :
    glbUpdate 0xFFFF 0x01 = 0x0000 ∧ glbUpdate 0xFF80 0xFF = 0x007F ∧ glbUpdate 0x00FF 0x01 = 0x0100 := by decide
/-- R146: a skipping step at 0x014E; V17: the big-endian target in the completing step. -/
theorem test_glb_skips_and_completes :
    let s := issued 0x0D (image [(0x014E, 0x12), (0x014F, 0x34)])
    (regsOf (exec .glbChk { s with regs := { s.regs with sum16 := 7, addr := 0x014E } })).map
        (fun r => (r.status.word, r.sum16, r.addr)) = some (0x0001, 7, 0x014F) ∧
    (regsOf (exec .glbChk { s with regs := { s.regs with sum16 := 0x1234, addr := 0x0150 } })).map
        (fun r => (r.status.word, r.res, r.tgt, r.addr)) = some (0x0006, 0x1234, 0x1234, 0x0150) := by decide

/-! ## Issue, faults, reset, reports -/

/-- V70. -/
theorem test_issue_illegal : (issued 0x0F (image [])).regs.status.word = 0x0182 := by decide
/-- V71. -/
theorem test_issue_short :
    (issue 0x04 0x014F State.reset.regs).status.word = 0x0282 ∧
    (issue 0x04 0x0150 State.reset.regs).status.word = 0x0001 := by decide
/-- V72. -/
theorem test_issue_priority : (issue 0x00 0x014F State.reset.regs).status.word = 0x0182 := by decide
/-- V73: a busy write is ignored. -/
theorem test_issue_while_busy :
    issue 0x04 0x0150 (issued 0x0C (image [])).regs = (issued 0x0C (image [])).regs := by decide
/-- V74. -/
theorem test_reset : resetRegs (issued 0x0C (image [])).regs = State.reset.regs := by decide

/-- `HEXFMT` at its default, and display characters of the tests' own choosing. -/
def presentation : Presentation :=
  { unknownText := ['?'], repl := '_', filled := '#', blank := '.' }

/-- V26: the report "03". -/
theorem test_report_sgb :
    (regsOf (exec .sgb (issued 0x05 (image [(0x0146, 0x03)])))).bind (report presentation .sgb) =
      some ['0', '3'] := by decide
/-- V52: the new-code report. -/
theorem test_report_publisher :
    (regsOf (exec .publisher (issued 0x06 (image [(0x0144, 0x30), (0x0145, 0x31), (0x014B, 0x33)])))).bind
        (report presentation .publisher) = some ['\'', '0', '1', '\'', ' ', '-', ' ', 'N'] := by decide
/-- R161: a prefix is open, so a `HEXFMT` that puts "0x" before its lower- or upper-case digits is admissible. -/
theorem test_prefixed_hex_is_admissible :
    let pr : Presentation := { presentation with hexfmt := fun b => '0' :: 'x' :: (hex2 b).map Char.toLower, repl := '\uFFFD' }
    pr.Admissible State.reset.par := by
  refine ⟨⟨['0', 'x'], fun b => ⟨(hex2 b).map Char.toLower, rfl, ?_⟩⟩, ?_⟩
  · have hd : ∀ n : BitVec 4, (hexDigit n).toLower.toUpper = hexDigit n := by decide
    simp [hex2, hd]
  · decide
/-- R161's examples: "01" and "AB". -/
theorem test_hex2 : hex2 0x01 = ['0', '1'] ∧ hex2 0xAB = ['A', 'B'] := by decide
/-- R94, V21: the title's masked third byte is reported as the replacement character. -/
theorem test_report_title_masked :
    (regsOf (exec .title (issued 0x02 (image [(0x0134, 0x54), (0x0135, 0x45), (0x0136, 0xC9), (0x0137, 0x54)])))).bind
        (report presentation .title) = some ['T', 'E', '_', 'T'] := by decide
/-- V20: trailing zero bytes are no part of the title, a zero byte inside it is (R91). -/
theorem test_trim : trim [0x54, 0x00, 0x45, 0x00, 0x00] = [0x54, 0x00, 0x45] := by decide

/-! ## Witnesses: concrete states and operands that meet the hypotheses of each statement -/

/-- An image with an undecodable title byte and the sentinel. -/
def marked : Memory := image [(0x0134, 0x80), (0x014B, 0x33)]

/-- A command just started on `marked`, with these turns to come. -/
def started (i : Instr) (ts : List Turn) : State := { issued (opcode i) marked with script := ts }

/-- The state after an illegal word, with these turns to come. -/
def faulted (ts : List Turn) : State := { issued 0x00 marked with script := ts }

/-- The reset state with `marked` presented, with these turns to come. -/
def waiting (ts : List Turn) : State := { idle marked with script := ts }

theorem issued_marked_inv (i : Instr) : Inv (issued (opcode i) marked) where
  par_ok := by cases i <;> decide
  inp_ok := by cases i <;> decide
  status_ok := by cases i <;> exact ⟨by decide, by decide, by decide, by decide, by decide⟩
  running := fun _ => by
    refine ⟨i, ?_, ?_, ?_, ?_⟩
    · cases i <;> rfl
    · cases i <;> decide
    · unfold ResultsCleared
      cases i <;> decide
    · cases i <;> first
        | exact ⟨rfl, rfl, rfl⟩
        | exact ⟨by decide, by decide, by decide, rfl⟩
        | exact ⟨by decide, rfl, rfl⟩
  faulted := by cases i <;> (intro h; cases h)
  fresh := by cases i <;> (intro h; cases h)
  addr_fits := by cases i <;> decide
  rlen_le := by cases i <;> decide

theorem started_inv (i : Instr) (ts : List Turn) : Inv (started i ts) := (issued_marked_inv i).withTurns ts none

theorem issued_illegal_inv : Inv (issued 0x00 marked) where
  par_ok := by decide
  inp_ok := by decide
  status_ok := ⟨by decide, by decide, by decide, by decide, by decide⟩
  running := by intro h; cases h
  faulted := fun _ => by decide
  fresh := by intro _ h; cases h
  addr_fits := by decide
  rlen_le := by decide

theorem faulted_inv (ts : List Turn) : Inv (faulted ts) := issued_illegal_inv.withTurns ts none

theorem idle_marked_inv : Inv (idle marked) where
  par_ok := by decide
  inp_ok := by decide
  status_ok := ⟨by decide, by decide, by decide, by decide, by decide⟩
  running := by intro h; cases h
  faulted := by intro h; cases h
  fresh := fun _ _ => by decide
  addr_fits := by decide
  rlen_le := by decide

theorem waiting_inv (ts : List Turn) : Inv (waiting ts) := idle_marked_inv.withTurns ts none

/-- The zero image presented, the block idle. -/
def zeros : State := idle (image [])

/-- The same state with one image byte changed. -/
def changed (a : Nat) (v : Byte) : State := { zeros with inp := { zeros.inp with image := zeros.inp.image.write a v } }

/-- A run of one Exec step exists where the meaning answers a next state. -/
theorem exists_runs_one {s t : State} {i : Instr} (hb : s.regs.status.busy = false) (hl : 0x0150 ≤ s.inp.image.len)
    (h : exec i (s.withRegs (issue (opcode i) s.inp.image.len s.regs)) = .next t) : ∃ r, Runs s (opcode i) 1 r := by
  refine ⟨t.regs, runs_single hb hl ?_⟩
  rw [h]
  exact congrArg _ (exec_next h)

/-- `GLB_CHK` on the zero image passes, from wherever its index stands. -/
theorem exists_passing_sum (k : Nat) {s : State} (hx : s.inp.image = image []) (hb : s.regs.status.busy = true)
    (hi : s.regs.op = opcode .glbChk) (hs : s.regs.sum16 = 0) (hk : s.regs.addr + k = 0x0150) :
    ∃ r, Execs s (k + 1) r ∧ r.status.pass = true := by
  have hl : s.inp.image.len = 0x0150 := by rw [hx]; rfl
  induction k generalizing s with
  | zero =>
    refine ⟨_, Execs.step hb hi (exec_glbChk_completing (by omega) (by omega)) (execs_zero.2 rfl), ?_⟩
    rw [hs, hx]
    exact (by decide : glbVerdict 0 (bigEndian16 ((image []).byte 0x014E) ((image []).byte 0x014F)) = true)
  | succ k ih =>
    obtain ⟨r, hr, hp⟩ := ih (s := { s with
        regs :=
          { s.regs with
            sum16 :=
              if excluded s.regs.addr then s.regs.sum16
              else glbUpdate s.regs.sum16 (s.inp.image.byte s.regs.addr)
            addr := s.regs.addr + 1 } })
      hx hb hi (by simp only [hs, hx]; split <;> rfl) (by simp only; omega) hl
    exact ⟨r, Execs.step hb hi (exec_glbChk_reading (by omega)) hr, hp⟩

/-- `DecodingIsTotal`: both clauses, at the ends of their ranges. -/
theorem witness_decodingIsTotal :
    (∀ c ∈ ([0x01, 0x0E] : List Byte), 1 ≤ c.toNat ∧ c.toNat ≤ 14) ∧
    ∀ c ∈ ([0x00, 0x0F, 0xFF] : List Byte), ¬(1 ≤ c.toNat ∧ c.toNat ≤ 14) := by decide

/-- `DecodeAndEncodeAgree`: both sides of both equivalences. -/
theorem witness_decodeAndEncodeAgree :
    decodeBytes [0x0C, 0xFF] = .ok (.hdrChk, [0xFF]) ∧ ([0x0C, 0xFF] : List Byte) = encode .hdrChk ++ [0xFF] ∧
    disassemble [0x02, 0x01] = .ok [.title, .logoChk] ∧ ([0x02, 0x01] : List Byte) = assemble [.title, .logoChk] := by
  decide

/-- `SourceTextAssembles`: a line with a comment and one without. -/
theorem witness_sourceTextAssembles :
    ∀ l ∈ ([(.cgb, some [' ', ';', 'x']), (.title, none)] : List (Instr × Option Text)),
      ∀ comment, l.2 = some comment → '\n' ∉ comment := by
  intro l hl comment h
  simp only [List.mem_cons, List.not_mem_nil, or_false] at hl
  rcases hl with rfl | rfl
  · cases h
    decide
  · cases h

/-- `StepRunsTheCommandInProgress`: the hypotheses and the script of each clause. -/
theorem witness_stepRunsTheCommandInProgress (ts : List Turn) :
    (started .hdrChk ts).regs.status.busy = true ∧ (started .hdrChk ts).regs.status.done = false ∧
    decodeBytes (commandBytes (started .hdrChk ts)) = .ok (.hdrChk, []) ∧
    (started .hdrChk []).script = [] ∧ (started .hdrChk (.exec :: ts)).script = .exec :: ts ∧
    (started .hdrChk (.awaitIdle :: ts)).script = .awaitIdle :: ts ∧
    (started .hdrChk (.awaitDone :: ts)).script = .awaitDone :: ts := ⟨rfl, rfl, rfl, rfl, rfl, rfl, rfl⟩

/-- `IdleTurnsChangeOnlyTheScript`: each clause. -/
theorem witness_idleTurnsChangeOnlyTheScript (ts : List Turn) :
    (waiting ts).regs.status.busy = false ∧ (waiting ts).regs.status.done = false ∧ (waiting []).script = [] ∧
    (waiting (.exec :: ts)).script = .exec :: ts ∧ (waiting (.awaitIdle :: ts)).script = .awaitIdle :: ts ∧
    (waiting (.awaitDone :: ts)).script = .awaitDone :: ts ∧
    (faulted (.awaitDone :: ts)).regs.status.done = true ∧ (faulted (.awaitDone :: ts)).script = .awaitDone :: ts :=
  ⟨rfl, rfl, rfl, rfl, rfl, rfl, rfl, rfl⟩

/-- `IssueInEveryCase` and `FaultsOfAnIssue`: a busy block; an illegal word; a legal word with 0x014F and with 0x0150
bytes. -/
theorem witness_issueInEveryCase :
    (started .hdrChk [.issue 0x04]).script = [.issue 0x04] ∧
    (started .hdrChk [.issue 0x04]).regs.status.busy = true ∧
    (waiting [.issue 0x0F]).regs.status.busy = false ∧ ¬(1 ≤ (0x0F : Byte).toNat ∧ (0x0F : Byte).toNat ≤ 14) ∧
    ((0x0F : Byte) = 0x00 ∨ 0x0F ≤ (0x0F : Byte).toNat) ∧
    (1 ≤ (0x0E : Byte).toNat ∧ (0x0E : Byte).toNat ≤ 14) ∧ ¬((0x0E : Byte) = 0x00 ∨ 0x0F ≤ (0x0E : Byte).toNat) ∧
    0x0150 ≤ (waiting [.issue 0x0E]).inp.image.len ∧
    (idle { cells := [], len := 0x014F }).inp.image.len < 0x0150 ∧
    (idle { cells := [], len := 0x014F }).regs.status.busy = false := by
  refine ⟨rfl, rfl, rfl, ?_, ?_, ?_, ?_, ?_, ?_, rfl⟩ <;> decide

/-- `ResetFromEveryState`: a running block and an idle one. -/
theorem witness_resetFromEveryState :
    (started .hdrChk [.reset]).script = [.reset] ∧ (started .hdrChk [.reset]).regs.status.busy = true ∧
    (waiting [.reset]).script = [.reset] := ⟨rfl, rfl, rfl⟩

/-- `ReadsReturnRegisters`: a read of a running block, of every register. -/
theorem witness_readsReturnRegisters (r : Reg) :
    Inv (started .hdrChk [.read r]) ∧ (started .hdrChk [.read r]).regs.status.busy = true ∧
    (started .hdrChk [.read r]).script = [.read r] ∧ ∃ t, step (started .hdrChk [.read r]) = .next t :=
  ⟨started_inv _ _, rfl, rfl, _, rfl⟩

/-- `RegisterNumbers`: the ends of the ranges. -/
theorem witness_registerNumbers :
    Reg.ofNumber 0 = some .op ∧ Reg.ofNumber 9 = some .label ∧ Reg.ofNumber 10 = none ∧ Reg.ofNumber 15 = none ∧
    Reg.ofNumber 16 = some (.rbuf 0) ∧ Reg.ofNumber 63 = some (.rbuf 47) ∧ Reg.ofNumber 64 = none := by decide

/-- `FlagsAreRaisedOnlyByTheirCommands`: a step that meets the premise of each clause. -/
theorem witness_flagsAreRaisedOnlyByTheirCommands :
    (Inv (started .logoChk []) ∧ ∃ t, step (started .logoChk []) = .next t ∧ t.regs.status.pass = true ∧
      (started .logoChk []).regs.status.pass = false) ∧
    (Inv (started .publisher []) ∧ ∃ t, step (started .publisher []) = .next t ∧ t.regs.status.unk = true ∧
      t.regs.status.newPub = true ∧ (started .publisher []).regs.status.unk = false ∧
      (started .publisher []).regs.status.newPub = false) ∧
    (Inv (started .manuf []) ∧ ∃ t, step (started .manuf []) = .next t ∧ t.regs.status.na = true ∧
      (started .manuf []).regs.status.na = false) ∧
    (Inv (started .title []) ∧ ∃ t, step (started .title []) = .next t ∧ t.regs.status.degr = true ∧
      (started .title []).regs.status.degr = false) ∧
    (Inv (waiting [.issue 0x00]) ∧ ∃ t, step (waiting [.issue 0x00]) = .next t ∧ t.regs.status.fault = true ∧
      (waiting [.issue 0x00]).regs.status.fault = false) ∧
    (Inv (waiting [.issue 0x01]) ∧ ∃ t, step (waiting [.issue 0x01]) = .next t ∧ t.regs.status.busy = true ∧
      (waiting [.issue 0x01]).regs.status.busy = false) ∧
    (Inv (faulted [.issue 0x01]) ∧ ∃ t, step (faulted [.issue 0x01]) = .next t ∧ t.regs.status.done = false ∧
      (faulted [.issue 0x01]).regs.status.done = true) ∧
    (Inv (faulted [.reset]) ∧ ∃ t, step (faulted [.reset]) = .next t ∧ t.regs.status.done = false ∧
      (faulted [.reset]).regs.status.done = true ∧
      t.regs.status.fcode ≠ (faulted [.reset]).regs.status.fcode) ∧
    (Inv (started .cgb []) ∧ ∃ t, step (started .cgb []) = .next t ∧ t.regs.status.busy = false ∧
      t.regs.status.done = true ∧ (started .cgb []).regs.status.busy = true ∧
      (started .cgb []).regs.status.done = false) ∧
    (Inv (started .cgb [.reset]) ∧ ∃ t, step (started .cgb [.reset]) = .next t ∧ t.regs.status.busy = false ∧
      (started .cgb [.reset]).regs.status.busy = true) ∧
    (Inv (waiting [.issue 0xFF]) ∧ ∃ t, step (waiting [.issue 0xFF]) = .next t ∧ t.regs.status.done = true ∧
      (waiting [.issue 0xFF]).regs.status.done = false ∧
      t.regs.status.fcode ≠ (waiting [.issue 0xFF]).regs.status.fcode) :=
  ⟨⟨started_inv _ _, _, rfl, by decide, rfl⟩, ⟨started_inv _ _, _, rfl, by decide, by decide, rfl, rfl⟩,
    ⟨started_inv _ _, _, rfl, by decide, rfl⟩, ⟨started_inv _ _, _, rfl, by decide, rfl⟩,
    ⟨waiting_inv _, _, rfl, by decide, rfl⟩, ⟨waiting_inv _, _, rfl, by decide, rfl⟩,
    ⟨faulted_inv _, _, rfl, by decide, rfl⟩, ⟨faulted_inv _, _, rfl, by decide, rfl, by decide⟩,
    ⟨started_inv _ _, _, rfl, by decide, by decide, rfl, rfl⟩, ⟨started_inv _ _, _, rfl, by decide, rfl⟩,
    ⟨waiting_inv _, _, rfl, by decide, rfl, by decide⟩⟩

/-- `BlockWritesOnlyItsRegisters`: a step of the block, and one at which the host presents inputs. -/
theorem witness_blockWritesOnlyItsRegisters :
    ((∃ t, step (started .cgb []) = .next t) ∧ ∀ x ts, (started .cgb []).script ≠ .present x :: ts) ∧
    (∃ t, step (waiting [.present (inputs (image []))]) = .next t) ∧
    (waiting [.present (inputs (image []))]).script = [.present (inputs (image []))] :=
  ⟨⟨⟨_, rfl⟩, fun _ _ h => by cases h⟩, ⟨_, rfl⟩, rfl⟩

/-- `AccumulatorsHaveOneWriterEach`: each way either accumulator changes. -/
theorem witness_accumulatorsHaveOneWriterEach :
    (∃ t, step (started .hdrChk []) = .next t ∧ t.regs.acc8 ≠ (started .hdrChk []).regs.acc8) ∧
    (let s := started .glbChk []
     let s := { s with regs := { s.regs with addr := 0x0134 } }
     ∃ t, step s = .next t ∧ t.regs.sum16 ≠ s.regs.sum16) ∧
    (let s := faulted [.reset]
     let s := { s with regs := { s.regs with acc8 := 1, sum16 := 1 } }
     ∃ t, step s = .next t ∧ t.regs.acc8 ≠ s.regs.acc8 ∧ t.regs.sum16 ≠ s.regs.sum16) :=
  ⟨⟨_, rfl, by decide⟩, ⟨_, rfl, by decide⟩, ⟨_, rfl, by decide, by decide⟩⟩

/-- `PresentingInputs`: each clause. -/
theorem witness_presentingInputs :
    ((started .cgb []).regs.status.busy = true ∧ inputs (image []) ≠ (started .cgb []).inp) ∧
    ((waiting []).regs.status.busy = false ∧ (inputs (image [])).wf (waiting []).par = true) ∧
    (inputs (image [(0x0150, 0x01)])).wf (waiting []).par = false := by
  refine ⟨⟨rfl, ?_⟩, ⟨rfl, ?_⟩, ?_⟩ <;> decide

/-- The statements of one command, of one Exec step and of a run: an idle block with exactly 0x0150 bytes, and with
one fewer; the sentinel present and absent; and, for the checksums, an index on both sides of its limit. -/
theorem witness_commands :
    zeros.regs.status.busy = false ∧ 0x0150 ≤ zeros.inp.image.len ∧
    (idle { cells := [], len := 0x014F }).regs.status.busy = false ∧
    (idle { cells := [], len := 0x014F }).inp.image.len < 0x0150 ∧
    (idle marked).inp.image.byte 0x014B = 0x33 ∧ zeros.inp.image.byte 0x014B ≠ 0x33 ∧
    (started .hdrChk []).regs.addr ≤ 0x014C ∧
    0x014C < ({ started .hdrChk [] with regs := { (started .hdrChk []).regs with addr := 0x014D } } : State).regs.addr ∧
    (started .glbChk []).regs.addr < (started .glbChk []).inp.image.len ∧
    (let s := { started .glbChk [] with regs := { (started .glbChk []).regs with addr := 0x0150 } }
     s.inp.image.len ≤ s.regs.addr) := by
  refine ⟨rfl, ?_, rfl, ?_, ?_, ?_, ?_, ?_, ?_, ?_⟩ <;> decide

/-- `RawFieldCommands` and `ByteLookupCommands`: the cases of their first hypothesis. -/
theorem witness_rawFieldCommands :
    (∀ x ∈ [(Instr.cgb, (0x04 : Byte), 0x0143), (.sgb, 0x05, 0x0146), (.maskver, 0x0B, 0x014C)],
      opcode x.1 = x.2.1) ∧
    ∃ (i : Instr) (c : Byte) (a : Nat) (table : Inputs → Table Byte),
      i = .dest ∧ c = 0x0A ∧ a = 0x014A ∧ table = Inputs.tDest ∧ opcode i = c :=
  ⟨by decide, _, _, _, _, rfl, rfl, rfl, rfl, rfl⟩

/-- `HeaderChecksumAfterSteps`, `GlobalChecksumAfterSteps`: the ends of the range of `k`. -/
theorem witness_checksumAfterSteps :
    zeros.regs.status.busy = false ∧ (0 : Nat) ≤ 25 ∧ (25 : Nat) ≤ 25 ∧ (0 : Nat) ≤ zeros.inp.image.len ∧
    0x0150 ≤ zeros.inp.image.len := by
  refine ⟨rfl, ?_, ?_, ?_, ?_⟩ <;> decide

/-- `HeaderChecksumIgnoresByteOrder`: two different images whose 25 bytes are permutations of each other. -/
theorem witness_headerChecksumIgnoresByteOrder :
    ((changed 0x0134 0x01).inp.image.bytes 0x0134 25).Perm ((changed 0x014C 0x01).inp.image.bytes 0x0134 25) ∧
    (∃ r, Runs (changed 0x0134 0x01) 0x0C 26 r) ∧ ∃ r, Runs (changed 0x014C 0x01) 0x0C 26 r :=
  ⟨by decide, exists_runs_hdrChk rfl (by decide), exists_runs_hdrChk rfl (by decide)⟩

/-- `HeaderChecksumSensitivity`: a change at each end of the range and just outside it. -/
theorem witness_headerChecksumSensitivity :
    zeros.inp.image.wf = true ∧ (∃ r, Runs zeros 0x0C 26 r) ∧
    ∀ a ∈ [0x0134, 0x014C, 0x0133, 0x014D],
      a < zeros.inp.image.len ∧ ∃ r, Runs (changed a 0x01) 0x0C 26 r := by
  refine ⟨by decide, exists_runs_hdrChk rfl (by decide), fun a ha => ?_⟩
  simp only [List.mem_cons, List.not_mem_nil, or_false] at ha
  rcases ha with rfl | rfl | rfl | rfl <;> exact ⟨by decide, exists_runs_hdrChk rfl (by decide)⟩

/-- `HeaderChecksumRoundTrip` and `GlobalChecksumRoundTrip`. -/
theorem witness_roundTrips :
    zeros.regs.status.busy = false ∧ 0x0150 ≤ zeros.inp.image.len ∧ zeros.inp.image.wf = true ∧
    (∃ r, Runs zeros 0x0C 26 r) ∧ ∃ r, Runs zeros 0x0D (zeros.inp.image.len + 1) r :=
  ⟨rfl, by decide, by decide, exists_runs_hdrChk rfl (by decide), exists_runs_glbChk rfl (by decide)⟩

/-- `GlobalChecksumSensitivity`: a summed byte at each end of the image, next to the two excluded bytes, and those. -/
theorem witness_globalChecksumSensitivity :
    zeros.inp.image.wf = true ∧ (∃ r, Runs zeros 0x0D (zeros.inp.image.len + 1) r) ∧
    ∀ a ∈ [0x0000, 0x014D, 0x014E, 0x014F],
      a < zeros.inp.image.len ∧ (0x01 : Byte) ≠ zeros.inp.image.byte a ∧
        ∃ r, Runs (changed a 0x01) 0x0D (zeros.inp.image.len + 1) r := by
  refine ⟨by decide, exists_runs_glbChk rfl (by decide), fun a ha => ?_⟩
  simp only [List.mem_cons, List.not_mem_nil, or_false] at ha
  rcases ha with rfl | rfl | rfl | rfl <;>
    exact ⟨by decide, by decide, exists_runs_glbChk (s := changed _ _) rfl (by decide)⟩

/-- `AppendedByteChangesTheSum`. -/
theorem witness_appendedByteChangesTheSum :
    let longer := (zeros.inp.image.padTo (zeros.inp.image.len + 1)).write zeros.inp.image.len 0x01
    (∃ r, Runs zeros 0x0D (zeros.inp.image.len + 1) r) ∧
    (∃ r, Runs { zeros with inp := { zeros.inp with image := longer } } 0x0D (zeros.inp.image.len + 2) r) ∧
    (0x01 : Byte) ≠ 0 :=
  ⟨exists_runs_glbChk rfl (by decide),
    exists_runs_glbChk
      (s := { zeros with
        inp :=
          { zeros.inp with
            image := (zeros.inp.image.padTo (zeros.inp.image.len + 1)).write zeros.inp.image.len 0x01 } })
      rfl (by decide),
    by decide⟩

/-- `LogoFlipConsequences`: the zero image with the logo's first byte changed; the logo check and the global check pass
before. -/
theorem witness_logoFlipConsequences :
    zeros.inp.image.wf = true ∧ (0x01 : Byte) ≠ zeros.inp.image.byte 0x0104 ∧
    (∃ r, Runs zeros 0x01 1 r ∧ r.status.pass = true) ∧ (∃ r, Runs zeros 0x0C 26 r) ∧
    (∃ r, Runs zeros 0x0D (zeros.inp.image.len + 1) r ∧ r.status.pass = true) ∧
    (∃ r, Runs (changed 0x0104 0x01) 0x01 1 r) ∧ (∃ r, Runs (changed 0x0104 0x01) 0x0C 26 r) ∧
    ∃ r, Runs (changed 0x0104 0x01) 0x0D (zeros.inp.image.len + 1) r := by
  refine ⟨by decide, by decide, ?_, exists_runs_hdrChk rfl (by decide), ?_, ?_, exists_runs_hdrChk rfl (by decide),
    exists_runs_glbChk (s := changed _ _) rfl (by decide)⟩
  · refine ⟨_, runs_single (i := .logoChk) rfl (by decide) rfl, ?_⟩
    decide
  · obtain ⟨r, hr, hp⟩ :=
      exists_passing_sum zeros.inp.image.len
        (s := { zeros with regs := issue 0x0D zeros.inp.image.len zeros.regs }) rfl (by decide) (by decide)
        (by decide) (by decide)
    exact ⟨r, runs_iff_execs.2 hr, hp⟩
  · exact exists_runs_one (i := .logoChk) rfl (by decide) rfl

/-- `LogoVerdictIsEquality`: changes at both ends of the logo and just outside it; the verdict before is PASS. -/
theorem witness_logoVerdictIsEquality :
    0x0150 ≤ zeros.inp.image.len ∧ (∃ t, exec .logoChk zeros = .next t ∧ t.regs.status.pass = true) ∧
    ∀ a ∈ [0x0104, 0x0133, 0x0103, 0x0134],
      a < zeros.inp.image.len ∧ (0x01 : Byte) ≠ zeros.inp.image.byte a ∧
        ∃ t, exec .logoChk (changed a 0x01) = .next t := by
  refine ⟨by decide, ⟨_, rfl, by decide⟩, fun a ha => ?_⟩
  simp only [List.mem_cons, List.not_mem_nil, or_false] at ha
  rcases ha with rfl | rfl | rfl | rfl <;> exact ⟨by decide, by decide, _, rfl⟩

/-- `RenderedCells`, `RenderingIsInjective`: two images that differ in the logo. -/
theorem witness_rendering :
    0x0150 ≤ zeros.inp.image.len ∧ (∃ t, exec .logoRender zeros = .next t) ∧
    0x0150 ≤ (changed 0x0104 0x01).inp.image.len ∧ ∃ t, exec .logoRender (changed 0x0104 0x01) = .next t :=
  ⟨by decide, ⟨_, rfl⟩, by decide, _, rfl⟩

/-- `TextLaws`: both commands. -/
theorem witness_textLaws : (∃ r, Runs zeros 0x02 1 r) ∧ ∃ r, Runs zeros 0x03 1 r :=
  ⟨exists_runs_one (i := .title) rfl (by decide) rfl, exists_runs_one (i := .manuf) rfl (by decide) rfl⟩

/-- `LookupLaws`: a lookup command, the sentinel present (`marked`) and absent. -/
theorem witness_lookupLaws :
    (0x06 : Byte) ∈ ([0x06, 0x07, 0x08, 0x09, 0x0A] : List Byte) ∧ (idle marked).regs.status.busy = false ∧
    (idle marked).inp.image.byte 0x014B = 0x33 ∧ zeros.inp.image.byte 0x014B ≠ 0x33 := by
  refine ⟨?_, rfl, ?_, ?_⟩ <;> decide

/-- `EveryStepKeepsTheInvariant`: a running block, an idle one and a faulted one step. -/
theorem witness_everyStepKeepsTheInvariant :
    (∀ i, Inv (started i [])) ∧ (∃ t, step (started .glbChk []) = .next t) ∧
    Inv (waiting [.issue 0x0C]) ∧ (∃ t, step (waiting [.issue 0x0C]) = .next t) ∧
    Inv (faulted [.reset]) ∧ ∃ t, step (faulted [.reset]) = .next t :=
  ⟨fun i => started_inv i [], ⟨_, rfl⟩, waiting_inv _, ⟨_, rfl⟩, faulted_inv _, _, rfl⟩

/-- `NoStepFaults`: a state with a next step, and one at which the host may not present inputs. -/
theorem witness_noStepFaults :
    Inv (started .cgb []) ∧ (∃ t, step (started .cgb []) = .next t) ∧
    Inv (started .cgb [.present (inputs (image []))]) ∧
    step (started .cgb [.present (inputs (image []))]) = .refused .inputsChangedWhileBusy :=
  ⟨started_inv _ _, ⟨_, rfl⟩, started_inv _ _, rfl⟩

/-- `EveryCommandCompletes`, `CompletionIsPure`, `FaultLeavesNoTrace`: idle blocks with different registers and the
same inputs; step counts above zero. -/
theorem witness_wholeRuns :
    (idle marked).regs.status.busy = false ∧ (faulted []).regs.status.busy = false ∧
    (idle marked).regs ≠ (faulted []).regs ∧ (idle marked).par = (faulted []).par ∧
    (idle marked).inp = (faulted []).inp ∧ 0 < execSteps 0x0C (idle marked).inp ∧
    execSteps 0x0D (idle marked).inp = 0x0151 ∧ ¬(1 ≤ (0x00 : Byte).toNat ∧ (0x00 : Byte).toNat ≤ 14) := by
  refine ⟨rfl, rfl, ?_, rfl, rfl, ?_, ?_, ?_⟩ <;> decide

/-- `ResultsDependOnlyOnTheReadSet`: for `HDR_CHK` and `GLB_CHK`, another image that agrees on the read set. -/
theorem witness_resultsDependOnlyOnTheReadSet :
    (∀ a, readSet .hdrChk zeros.inp.image a →
      ((image []).write 0x0133 0x01).byte a = zeros.inp.image.byte a) ∧
    ((image []).write 0x0133 0x01) ≠ zeros.inp.image ∧
    (∀ a, readSet .glbChk zeros.inp.image a → (image []).byte a = zeros.inp.image.byte a) ∧
    (image []).len = zeros.inp.image.len := by
  refine ⟨fun a ha => ?_, by decide, fun _ _ => rfl, rfl⟩
  exact Memory.byte_write_other (m := image []) (by decide) 0x01 (by have := ha.1; omega)

/-- `HostLoopRunsToItsEnd`: an idle block and a running one at the start of the host's loop. -/
theorem witness_hostLoopRunsToItsEnd :
    Inv (waiting (hostLoop ([0x01, 0x0C] ++ [0x0D]))) ∧ Inv (started .hdrChk (hostLoop ([] ++ [0x00]))) :=
  ⟨waiting_inv _, started_inv _ _⟩

/-- The statements on reports: registers with valid results, `NEWPUB` clear and set, a masked and an unmasked title
byte, and registers without. -/
theorem witness_reports :
    (∃ t, exec .publisher (idle marked) = .next t ∧ ResultsValid t.regs ∧ t.regs.status.newPub = true) ∧
    (∃ t, exec .publisher zeros = .next t ∧ ResultsValid t.regs ∧ t.regs.status.newPub = false) ∧
    (∃ t, exec .title (idle marked) = .next t ∧ ResultsValid t.regs ∧ t.regs.rmask.getLsbD 0 = true ∧
      t.regs.rmask.getLsbD 1 = false) ∧
    ¬ResultsValid zeros.regs :=
  ⟨⟨_, rfl, ⟨rfl, rfl⟩, rfl⟩, ⟨_, rfl, ⟨rfl, rfl⟩, rfl⟩, ⟨_, rfl, ⟨rfl, rfl⟩, by decide, by decide⟩,
    fun h => by cases h.1⟩

end Sys2Proof.Tests
end

section
/-! PROOFS. The registers at the host's turns (spec/10_state.md section 5, R19 to R23): one rule for each of the turns
`Issue`, `Read` and `Reset`, which words are commands, what reads as cleared while a command runs, and the statements
about issue, reset and reads. -/

namespace Sys2Proof.Machine

/-! ## The host's turns -/

theorem step_issue {s : State} {c : Byte} {ts : List Turn} (h : s.script = .issue c :: ts) :
    step s = .next { s with script := ts, regs := issue c s.inp.image.len s.regs } := by
  simp only [step, takeTurn, h]

theorem step_read {s : State} {r : Reg} {ts : List Turn} (h : s.script = .read r :: ts) :
    step s = .next { s with script := ts, lastRead := some (r, readReg r s.regs) } := by
  simp only [step, takeTurn, h]

theorem step_reset {s : State} {ts : List Turn} (h : s.script = .reset :: ts) :
    step s = .next { s with script := ts, regs := Regs.cleared 0 } := by
  simp only [step, takeTurn, h, resetRegs_eq]

/-! ## The words that are commands -/

theorem opcode_range (i : Instr) : 1 ≤ (opcode i).toNat ∧ (opcode i).toNat ≤ 14 := by
  cases i <;> decide

theorem exists_decodeByte_of_range {c : Byte} (h : 1 ≤ c.toNat ∧ c.toNat ≤ 14) :
    ∃ i, decodeByte c = .ok i ∧ c = opcode i := by
  have hok : ∀ c : Byte, 1 ≤ c.toNat ∧ c.toNat ≤ 14 → (decodeByte c).isOk = true := by decide
  refine (decodeByte_cases c).resolve_right fun he => ?_
  have := hok c h
  rw [he] at this
  cases this

theorem decodeByte_of_not_range {c : Byte} (h : ¬(1 ≤ c.toNat ∧ c.toNat ≤ 14)) :
    decodeByte c = .error (.illegalCommand c) := by
  refine (decodeByte_cases c).resolve_left fun ⟨i, _, hi⟩ => h ?_
  exact hi ▸ opcode_range i

/-- R17: only `HDR_CHK`, the word 0x0C, starts at an address other than 0. -/
theorem startAddr_eq (i : Instr) : startAddr i = if opcode i = 0x0C then 0x0134 else 0 := by
  cases i <;> rfl

/-! ## The registers while a command runs -/

theorem Inv.resultsCleared {s : State} (h : Inv s) (hb : s.regs.status.busy = true) : ResultsCleared s.regs :=
  let ⟨_, hrun⟩ := h.running hb
  hrun.cleared

section cleared
variable {r : Regs} (h : ResultsCleared r)
include h

theorem ResultsCleared.status_eq : r.status = { Status.zero with busy := true } := congrArg Regs.status h
theorem ResultsCleared.res_eq : r.res = 0 := congrArg Regs.res h
theorem ResultsCleared.tgt_eq : r.tgt = 0 := congrArg Regs.tgt h
theorem ResultsCleared.rlen_eq : r.rlen = 0 := congrArg Regs.rlen h
theorem ResultsCleared.rmask_eq : r.rmask = 0 := congrArg Regs.rmask h
theorem ResultsCleared.label_eq : r.label = .unknown := congrArg Regs.label h
theorem ResultsCleared.rbuf_eq : r.rbuf = Vector.replicate 48 0 := congrArg Regs.rbuf h

end cleared

/-! ## The statements -/

/-- Settles O8: the decoder tells a legal word from an illegal one, and the `issue_` lemma of each case gives the
registers. -/
theorem issueInEveryCase : Obligations.IssueInEveryCase := by
  intro s c ts hs after idle
  have hstep := step_issue hs
  refine ⟨fun hbusy => ?busy, fun hidle => ⟨fun hc => ?illegal, fun hc hlen => ?short, fun hc hlen => ?start⟩⟩
  case busy => rw [hstep, issue_busy hbusy]
  case illegal =>
    rw [hstep, issue_illegal hidle (decodeByte_of_not_range hc)]
    rfl
  case short =>
    obtain ⟨i, hi, -⟩ := exists_decodeByte_of_range hc
    rw [hstep, issue_short hidle hi hlen]
    rfl
  case start =>
    obtain ⟨i, hi, rfl⟩ := exists_decodeByte_of_range hc
    rw [hstep, issue_start hidle hi hlen, startAddr_eq]
    rfl

/-- Settles O10: `Regs.cleared 0` is the register file written out, at reset and after a `Reset` turn. -/
theorem resetFromEveryState : Obligations.ResetFromEveryState :=
  ⟨reset_regs_eq, fun _ _ hs => step_reset hs⟩

/-- Settles O11: a read turn returns `readReg`; while a command runs, `ResultsCleared` gives the register read. -/
theorem readsReturnRegisters : Obligations.ReadsReturnRegisters := by
  refine ⟨fun s r ts hs => ⟨readReg r s.regs, step_read hs, ?_⟩, fun s t r ts hinv hbusy hs hst => ?_⟩
  · cases r <;> rfl
  · have hcl := hinv.resultsCleared hbusy
    rw [step_read hs] at hst
    cases hst
    cases r with
    | op | acc8 | sum16 | addr => trivial
    | status => simp only [readReg, hcl.status_eq]; rfl
    | res => simp [readReg, hcl.res_eq]
    | tgt => simp [readReg, hcl.tgt_eq]
    | rlen => simp [readReg, hcl.rlen_eq]
    | rmask => simp [readReg, hcl.rmask_eq]
    | label => simp [readReg, hcl.label_eq]
    | rbuf i => simp [readReg, hcl.rbuf_eq]

end Sys2Proof.Machine
end

section
/-! PROOFS. The raw-byte field commands `CGB`, `SGB`, `MASKVER` (spec/40_raw_fields.md, R80 to R82), after two rules
for every command: its issue on a short image, and its run where one Exec step is all of it. -/

namespace Sys2Proof.Machine

/-! ## The issue of any command -/

/-- R183, R185: on a short image the issue of any command is its fault record and takes no Exec step. -/
theorem faultsOnShortImage_opcode (i : Instr) : FaultsOnShortImage (opcode i) := by
  intro s hidle hshort
  rw [runs_iff_execs, execs_zero]
  show _ = issue (opcode i) s.inp.image.len s.regs
  rw [issue_short hidle (decodeByte_opcode i) hshort]
  rfl

/-- The state an issue with start address 0 leaves on a long enough image: every register cleared but `OP`, and
`BUSY` set (R19, R20). -/
def State.justIssued (s : State) (c : Byte) : State :=
  s.withRegs { Regs.cleared c with status := { Status.zero with busy := true } }

theorem withRegs_issue_eq_justIssued {s : State} {i : Instr} (hidle : s.regs.status.busy = false)
    (hlong : 0x0150 ≤ s.inp.image.len) (hstart : startAddr i = 0) :
    s.withRegs (issue (opcode i) s.inp.image.len s.regs) = s.justIssued (opcode i) := by
  rw [issue_start hidle (decodeByte_opcode i) hlong, hstart]
  rfl

/-- R209: where the first Exec step answers `r` from the issued state, the run of one step leaves `r`. -/
theorem runs_one_of_exec_justIssued {s : State} {i : Instr} {r : Regs} (hidle : s.regs.status.busy = false)
    (hlong : 0x0150 ≤ s.inp.image.len) (hstart : startAddr i = 0)
    (hexec : exec i (s.justIssued (opcode i)) = .next ((s.justIssued (opcode i)).withRegs r)) :
    Runs s (opcode i) 1 r := by
  refine runs_single hidle hlong ?_
  rw [withRegs_issue_eq_justIssued hidle hlong hstart]
  exact hexec

/-! ## The raw fields -/

/-- `i` is a raw-byte field command: it reads the header byte at `a`, and its index starts at 0. -/
structure IsRawField (i : Instr) (a : Nat) : Prop where
  exec_eq : ∀ s, exec i s = rawField a s
  inHeader : a < 0x0150
  startAddr_eq : startAddr i = 0

theorem isRawField_cgb : IsRawField .cgb 0x0143 := ⟨fun _ => rfl, by decide, rfl⟩
theorem isRawField_sgb : IsRawField .sgb 0x0146 := ⟨fun _ => rfl, by decide, rfl⟩
theorem isRawField_maskver : IsRawField .maskver 0x014C := ⟨fun _ => rfl, by decide, rfl⟩

/-- The one Exec step of a raw field command: `RES` is the zero-extended byte, and the command completes. -/
theorem IsRawField.exec_next {i : Instr} {a : Nat} (h : IsRawField i a) {s : State}
    (hlong : 0x0150 ≤ s.inp.image.len) :
    exec i s =
      .next (s.withRegs (complete { s.regs with res := BitVec.ofNat 16 (s.inp.image.byte a).toNat })) := by
  rw [h.exec_eq, exec_rawField (Nat.lt_of_lt_of_le h.inHeader hlong), zext16_eq]
  rfl

/-- The rows of the statement: its opcodes are the encoder's, its addresses those of the header layout (R62, R64). -/
theorem isRawField_of_mem {i : Instr} {c : Byte} {a : Nat}
    (hrow : (i, c, a) ∈ [(Instr.cgb, (0x04 : Byte), 0x0143), (.sgb, 0x05, 0x0146), (.maskver, 0x0B, 0x014C)]) :
    c = opcode i ∧ IsRawField i a := by
  simp only [List.mem_cons, List.not_mem_nil, or_false, Prod.mk.injEq] at hrow
  obtain ⟨rfl, rfl, rfl⟩ | ⟨rfl, rfl, rfl⟩ | ⟨rfl, rfl, rfl⟩ := hrow
  · exact ⟨rfl, isRawField_cgb⟩
  · exact ⟨rfl, isRawField_sgb⟩
  · exact ⟨rfl, isRawField_maskver⟩

/-- Settles O18: the one Exec step of a raw field command, taken from any state and from the state an issue left. -/
theorem rawFieldCommands : Obligations.RawFieldCommands := by
  intro i c a hrow
  obtain ⟨rfl, hraw⟩ := isRawField_of_mem hrow
  refine ⟨fun s hlong => ?step, fun s hidle hlong => ?run, faultsOnShortImage_opcode i⟩
  case step => exact hraw.exec_next hlong
  case run => exact runs_one_of_exec_justIssued hidle hlong hraw.startAddr_eq (hraw.exec_next hlong)

end Sys2Proof.Machine
end

section
/-! PROOFS. The text field commands `TITLE`, `MANUF` (spec/41_text_fields.md, R90 and R92): what `RBUF` and `RMASK`
hold after a text field of the image was placed and marked, the one Exec step of each command, and the statements. -/

namespace Sys2Proof.Machine

/-! ## A text field in `RBUF` and `RMASK` -/

/-- The `n` bytes of the image from `a` on, as a meaning receives them from `withSlice`. -/
def Memory.field (m : Memory) (a n : Nat) : List Byte := (List.range n).map fun i => m.byte (a + i)

@[simp] theorem Memory.field_length (m : Memory) (a n : Nat) : (m.field a n).length = n := by
  simp [Memory.field]

@[simp] theorem Memory.field_getElem (m : Memory) (a n i : Nat) (h : i < (m.field a n).length) :
    (m.field a n)[i] = m.byte (a + i) := by
  simp [Memory.field]

/-- `RBUF` with the field in its first `n` bytes, byte by byte. -/
def fieldBuf (m : Memory) (a n : Nat) (old : Vector Byte 48) : Vector Byte 48 :=
  Vector.ofFn fun i : Fin 48 => if i.val < n then m.byte (a + i) else old[i]

/-- `RMASK` with the bits of the field in its first `n` bits, bit by bit (R94). -/
def fieldMask (p : Params) (m : Memory) (a n : Nat) (old : Half) : Half :=
  BitVec.ofFnLE fun i : Fin 16 =>
    if i.val < n then !p.decodable.getLsbD (m.byte (a + i)).toNat else old.getLsbD i

theorem writeRbuf_field (m : Memory) (a n : Nat) (old : Vector Byte 48) :
    writeRbuf old (m.field a n) = fieldBuf m a n old := by
  ext i hi : 1
  simp [writeRbuf_getElem, fieldBuf]

theorem maskText_field (p : Params) (m : Memory) (a n : Nat) (old : Half) :
    maskText p (m.field a n) 0 old = fieldMask p m a n old := by
  apply BitVec.eq_of_getLsbD_eq
  intro j hj
  rw [maskText_getLsbD p _ 0 old j hj]
  simp [fieldMask, Params.isDecodable, hj]

/-- From a cleared `RBUF`, the bytes after the field are zero. -/
theorem fieldBuf_replicate_zero (m : Memory) (a n : Nat) :
    fieldBuf m a n (Vector.replicate 48 0) =
      Vector.ofFn fun i : Fin 48 => if i.val < n then m.byte (a + i) else 0 := by
  simp [fieldBuf]

/-- A field of 16 bytes determines every bit of `RMASK`. -/
theorem fieldMask_sixteen (p : Params) (m : Memory) (a : Nat) (old : Half) :
    fieldMask p m a 16 old =
      BitVec.ofFnLE fun i : Fin 16 => !p.decodable.getLsbD (m.byte (a + i)).toNat := by
  simp [fieldMask]

theorem allZero_field_iff (m : Memory) (a n : Nat) :
    allZero (m.field a n) = true ↔ ∀ i : Fin n, m.byte (a + i) = 0 := by
  simp [allZero, Memory.field, Fin.forall_iff]

theorem placeText_field (m : Memory) (a n : Nat) (r : Regs) :
    placeText (m.field a n) r = { r with rbuf := fieldBuf m a n r.rbuf, rlen := BitVec.ofNat 6 n } := by
  simp only [placeText, writeRbuf_field, Memory.field_length]

theorem markText_field (p : Params) (m : Memory) (a n : Nat) (r : Regs) :
    markText p (m.field a n) r =
      { r with
        rmask := fieldMask p m a n r.rmask
        status := { r.status with degr := fieldMask p m a n r.rmask != 0 } } := by
  simp only [markText, maskText_field, degraded]

/-! ## The one Exec step -/

section
variable {s : State} (hlong : 0x0150 ≤ s.inp.image.len)
include hlong

/-- R90: 16 bytes, each with its mask bit, and `DEGR` from the mask. -/
theorem exec_title_next :
    let mask := BitVec.ofFnLE fun i : Fin 16 => !s.par.decodable.getLsbD (s.inp.image.byte (0x0134 + i)).toNat
    exec .title s =
      .next
        (s.withRegs
          (complete
            { s.regs with
              rbuf := fieldBuf s.inp.image 0x0134 16 s.regs.rbuf
              rlen := 16
              rmask := mask
              status := { s.regs.status with degr := mask != 0 } })) := by
  have hfield : exec .title s =
      finish s
        (markText s.par (s.inp.image.field 0x0134 16) (placeText (s.inp.image.field 0x0134 16) s.regs)) :=
    exec_title hlong
  rw [placeText_field, markText_field, fieldMask_sixteen] at hfield
  exact hfield

/-- R92: the test of the four bytes, and what follows on each branch. -/
theorem exec_manuf_field :
    exec .manuf s =
      (let placed := placeText (s.inp.image.field 0x013F 4) s.regs
       if allZero (s.inp.image.field 0x013F 4) then
         finish s { placed with status := { s.regs.status with na := true } }
       else finish s (markText s.par (s.inp.image.field 0x013F 4) placed)) :=
  exec_manuf hlong

/-- R92, four zero bytes: "not applicable", and neither `RMASK` nor `DEGR` is written (decision D14). -/
theorem exec_manuf_notApplicable (hzero : ∀ i : Fin 4, s.inp.image.byte (0x013F + i) = 0) :
    exec .manuf s =
      .next
        (s.withRegs
          (complete
            { s.regs with
              rbuf := fieldBuf s.inp.image 0x013F 4 s.regs.rbuf
              rlen := 4
              status := { s.regs.status with na := true } })) := by
  rw [exec_manuf_field hlong, if_pos ((allZero_field_iff _ _ _).2 hzero), placeText_field]
  rfl

/-- R92, some byte not zero: the mask bits of the four bytes, and `DEGR` from the whole mask. -/
theorem exec_manuf_marked (hnonzero : ¬∀ i : Fin 4, s.inp.image.byte (0x013F + i) = 0) :
    let mask := fieldMask s.par s.inp.image 0x013F 4 s.regs.rmask
    exec .manuf s =
      .next
        (s.withRegs
          (complete
            { s.regs with
              rbuf := fieldBuf s.inp.image 0x013F 4 s.regs.rbuf
              rlen := 4
              rmask := mask
              status := { s.regs.status with degr := mask != 0 } })) := by
  rw [exec_manuf_field hlong, if_neg (mt (allZero_field_iff _ _ _).1 hnonzero), placeText_field, markText_field]
  rfl

end

/-! ## The statements -/

/-- Settles O19: the one Exec step of `TITLE`, taken from any state and from the state an issue left. -/
theorem titleCommand : Obligations.TitleCommand := by
  refine ⟨fun s hlong => ?step, fun s hidle hlong => ?run, faultsOnShortImage_opcode .title⟩
  case step => exact exec_title_next hlong
  case run =>
    refine runs_one_of_exec_justIssued (i := .title) hidle hlong rfl ?_
    rw [← fieldBuf_replicate_zero]
    exact exec_title_next (s := s.justIssued 0x02) hlong

/-- Settles O20: the one Exec step of `MANUF` on each of its branches, taken from any state and from the state an issue
left. -/
theorem manufacturerCommand : Obligations.ManufacturerCommand := by
  refine ⟨fun s hlong => ?step, fun s hidle hlong => ?run, faultsOnShortImage_opcode .manuf⟩
  case step =>
    by_cases hzero : ∀ i : Fin 4, s.inp.image.byte (0x013F + i) = 0
    · simp only [hzero, implies_true, decide_true, if_true]
      exact exec_manuf_notApplicable hlong hzero
    · simp only [hzero, decide_false, Bool.false_eq_true, if_false]
      exact exec_manuf_marked hlong hzero
  case run =>
    refine runs_one_of_exec_justIssued (i := .manuf) hidle hlong rfl ?_
    rw [← fieldBuf_replicate_zero]
    by_cases hzero : ∀ i : Fin 4, s.inp.image.byte (0x013F + i) = 0
    · simp only [hzero, implies_true, decide_true, if_true, Bool.not_true, Bool.false_and]
      exact exec_manuf_notApplicable (s := s.justIssued 0x03) hlong hzero
    · simp only [hzero, decide_false, Bool.false_eq_true, if_false, Bool.not_false, Bool.true_and]
      exact exec_manuf_marked (s := s.justIssued 0x03) hlong hzero

end Sys2Proof.Machine
end

section
/-! PROOFS. The table-lookup commands `CART`, `ROMSZ`, `RAMSZ`, `DEST` and `PUBLISHER` (spec/42_lookup_fields.md, R100
to R106): what a lookup writes on a hit and on a miss, the one Exec step of each command, and the statements. -/

namespace Sys2Proof.Machine

/-! ## A lookup -/

/-- The label of a table's answer: its text on a hit, `UNKNOWN_LABEL` on a miss (R100). -/
def Label.ofHit (hit : Option Text) : Label :=
  match hit with
  | some l => .named l
  | none => .unknown

/-- R100: a lookup writes `LABEL` and `UNK`, and no other register. -/
theorem lookupLabel_eq (hit : Option Text) (r : Regs) :
    lookupLabel hit r = { r with label := Label.ofHit hit, status := { r.status with unk := hit.isNone } } := by
  cases hit <;> rfl

/-! ## The lookup of one byte -/

/-- `i` is a lookup command: it looks the header byte at `a` up in `table`, and its index starts at 0. -/
structure IsByteLookup (i : Instr) (a : Nat) (table : Inputs → Table Byte) : Prop where
  exec_eq : ∀ s, exec i s = lookupField a (table s.inp) s
  inHeader : a < 0x0150
  startAddr_eq : startAddr i = 0

theorem isByteLookup_cart : IsByteLookup .cart 0x0147 Inputs.tCart := ⟨fun _ => rfl, by decide, rfl⟩
theorem isByteLookup_romsz : IsByteLookup .romsz 0x0148 Inputs.tRomSz := ⟨fun _ => rfl, by decide, rfl⟩
theorem isByteLookup_ramsz : IsByteLookup .ramsz 0x0149 Inputs.tRamSz := ⟨fun _ => rfl, by decide, rfl⟩
theorem isByteLookup_dest : IsByteLookup .dest 0x014A Inputs.tDest := ⟨fun _ => rfl, by decide, rfl⟩

/-- The one Exec step of a lookup command: the code to `RES`, the table's answer to `LABEL` and `UNK`, and the command
completes. -/
theorem IsByteLookup.exec_next {i : Instr} {a : Nat} {table : Inputs → Table Byte} (h : IsByteLookup i a table)
    {s : State} (hlong : 0x0150 ≤ s.inp.image.len) :
    let hit := (table s.inp).get (s.inp.image.byte a)
    exec i s =
      .next
        (s.withRegs
          (complete
            { s.regs with
              res := BitVec.ofNat 16 (s.inp.image.byte a).toNat
              label := Label.ofHit hit
              status := { s.regs.status with unk := hit.isNone } })) := by
  rw [h.exec_eq, exec_lookupField (Nat.lt_of_lt_of_le h.inHeader hlong), lookupLabel_eq, zext16_eq]
  rfl

/-- The rows of the statement: its opcodes are the encoder's, its addresses those of the header layout (R62, R64), its
tables those of the meanings. -/
theorem isByteLookup_of_row {i : Instr} {c : Byte} {a : Nat} {table : Inputs → Table Byte}
    (hrow :
      (i = .cart ∧ c = 0x07 ∧ a = 0x0147 ∧ table = Inputs.tCart) ∨
      (i = .romsz ∧ c = 0x08 ∧ a = 0x0148 ∧ table = Inputs.tRomSz) ∨
      (i = .ramsz ∧ c = 0x09 ∧ a = 0x0149 ∧ table = Inputs.tRamSz) ∨
      (i = .dest ∧ c = 0x0A ∧ a = 0x014A ∧ table = Inputs.tDest)) :
    c = opcode i ∧ IsByteLookup i a table := by
  obtain ⟨rfl, rfl, rfl, rfl⟩ | ⟨rfl, rfl, rfl, rfl⟩ | ⟨rfl, rfl, rfl, rfl⟩ | ⟨rfl, rfl, rfl, rfl⟩ := hrow
  · exact ⟨rfl, isByteLookup_cart⟩
  · exact ⟨rfl, isByteLookup_romsz⟩
  · exact ⟨rfl, isByteLookup_ramsz⟩
  · exact ⟨rfl, isByteLookup_dest⟩

/-- Settles O21: the one Exec step of a lookup command, taken from any state and from the state an issue left. -/
theorem byteLookupCommands : Obligations.ByteLookupCommands := by
  intro i c a table hrow found label
  obtain ⟨rfl, hlookup⟩ := isByteLookup_of_row hrow
  refine ⟨fun s hlong => ?step, fun s hidle hlong => ?run, faultsOnShortImage_opcode i⟩
  case step => exact hlookup.exec_next hlong
  case run => exact runs_one_of_exec_justIssued hidle hlong hlookup.startAddr_eq (hlookup.exec_next hlong)

/-! ## The two characters of the new publisher code -/

/-- `RMASK` with the bits of two bytes in its first two bits (R94, R101). -/
def pairMask (p : Params) (b0 b1 : Byte) (old : Half) : Half :=
  BitVec.ofFnLE fun i : Fin 16 =>
    if i.val = 0 then !p.decodable.getLsbD b0.toNat
    else if i.val = 1 then !p.decodable.getLsbD b1.toNat
    else old.getLsbD i

theorem maskText_pair (p : Params) (b0 b1 : Byte) (old : Half) :
    maskText p [b0, b1] 0 old = pairMask p b0 b1 old := by
  apply BitVec.eq_of_getLsbD_eq
  intro j hj
  rw [maskText_getLsbD p _ 0 old j hj]
  match j with
  | 0 => simp [pairMask, Params.isDecodable]
  | 1 => simp [pairMask, Params.isDecodable]
  | j + 2 => simp [pairMask, hj]

theorem writeRbuf_pair (old : Vector Byte 48) (b0 b1 : Byte) :
    writeRbuf old [b0, b1] = (old.set 0 b0).set 1 b1 := by
  ext i hi : 1
  rw [writeRbuf_getElem]
  match i with
  | 0 => simp
  | 1 => simp
  | i + 2 => simp

/-! ## The one Exec step of `PUBLISHER` -/

/-- `RMASK` on the code 0x33, from the mask held before: the bits of the two characters (R101). -/
def publisherMask (s : State) (old : Half) : Half :=
  pairMask s.par (s.inp.image.byte 0x0144) (s.inp.image.byte 0x0145) old

/-- What the consulted table answers to `PUBLISHER`, from the mask held before (R101, R102): the new table is asked only
on the code 0x33 and with no mask bit set, the old table only on another code. -/
def publisherHit (s : State) (old : Half) : Option Text :=
  if s.inp.image.byte 0x014B = 0x33 then
    if publisherMask s old = 0 then s.inp.tNewPub.get (s.inp.image.byte 0x0144, s.inp.image.byte 0x0145) else none
  else s.inp.tOldPub.get (s.inp.image.byte 0x014B)

section
variable {s : State} (hlong : 0x0150 ≤ s.inp.image.len)
include hlong

/-- R101 on the code 0x33: the two characters, their mask bits and `DEGR`, and the lookup of the pair. -/
theorem exec_publisher_new (hnew : s.inp.image.byte 0x014B = 0x33) :
    let b0 := s.inp.image.byte 0x0144
    let b1 := s.inp.image.byte 0x0145
    let mask := publisherMask s s.regs.rmask
    let hit := publisherHit s s.regs.rmask
    exec .publisher s =
      .next
        (s.withRegs
          (complete
            { s.regs with
              rbuf := (s.regs.rbuf.set 0 b0).set 1 b1
              rlen := 2
              rmask := mask
              res := BitVec.ofNat 16 (b0.toNat * 256 + b1.toNat)
              label := Label.ofHit hit
              status := { s.regs.status with newPub := true, degr := mask != 0, unk := hit.isNone } })) := by
  rw [exec_publisher hlong, if_pos hnew]
  simp only [newPublisher, publisherHit, publisherMask, if_pos hnew, lookupLabel_eq, markText, placeText, maskText_pair,
    writeRbuf_pair, bigEndian16_eq, degraded]
  rfl

/-- R101 on another code: the old table is looked up; the mask `m` has no part in it. -/
theorem exec_publisher_old (hold : s.inp.image.byte 0x014B ≠ 0x33) (m : Half) :
    let hit := publisherHit s m
    exec .publisher s =
      .next
        (s.withRegs
          (complete
            { s.regs with
              res := BitVec.ofNat 16 (s.inp.image.byte 0x014B).toNat
              label := Label.ofHit hit
              status := { s.regs.status with newPub := false, unk := hit.isNone } })) := by
  rw [exec_publisher hlong, if_neg hold]
  simp only [oldPublisher, publisherHit, if_neg hold, lookupLabel_eq, zext16_eq]
  rfl

end

/-- Settles O22: the one Exec step of `PUBLISHER` on each of its branches, taken from any state and from the state an
issue left. -/
theorem publisherCommand : Obligations.PublisherCommand := by
  refine ⟨fun s hlong hnew => ?new, fun s hlong hold => ?old, fun s hidle hlong => ?run,
    faultsOnShortImage_opcode .publisher⟩
  case new => exact exec_publisher_new hlong hnew
  case old => exact exec_publisher_old hlong hold 0
  case run =>
    refine runs_one_of_exec_justIssued (i := .publisher) hidle hlong rfl ?_
    split
    · next hnew => exact exec_publisher_new (s := s.justIssued 0x06) hlong hnew
    · next hold => exact exec_publisher_old (s := s.justIssued 0x06) hlong hold 0

end Sys2Proof.Machine
end

section
/-! PROOFS. The logo commands `LOGO_CHK`, `LOGO_RENDER` (spec/43_logo.md, R115, R116, R120 to R122): the verdict as an
equality of bytes, each byte and each cell of the rendering as nibbles of the image's logo, the one Exec step of each
command, and the statements. -/

namespace Sys2Proof.Machine

/-! ## The logo bytes -/

theorem Memory.field_getElem? {m : Memory} {a n i : Nat} (hi : i < n) :
    (m.field a n)[i]? = some (m.byte (a + i)) := by
  simp [Memory.field, hi]

/-- A field of 48 bytes fills `RBUF`: nothing of its former contents is left. -/
theorem fieldBuf_full (m : Memory) (a : Nat) (old : Vector Byte 48) :
    fieldBuf m a 48 old = Vector.ofFn fun i : Fin 48 => m.byte (a + i) := by
  simp [fieldBuf]

/-- A write outside a field leaves the field as it was. -/
theorem Memory.field_write_of_outside {m : Memory} (hwf : m.wf = true) {a n x : Nat} (v : Byte)
    (hout : ¬(a ≤ x ∧ x < a + n)) : (m.write x v).field a n = m.field a n := by
  refine List.map_congr_left fun i hi => Memory.byte_write_other hwf v ?_
  have := List.mem_range.1 hi
  omega

theorem logoMatches_iff (bs : List Byte) (ref : Vector Byte 48) : logoMatches bs ref = true ↔ bs = ref.toList :=
  beq_iff_eq

/-- R115: the comparison of a field of 48 bytes, position by position. -/
theorem logoMatches_field_iff (m : Memory) (a : Nat) (ref : Vector Byte 48) :
    logoMatches (m.field a 48) ref = true ↔ ∀ i : Fin 48, m.byte (a + i) = ref[i] := by
  simp [logoMatches_iff, List.ext_getElem_iff, Fin.forall_iff]

/-- R116: a byte changed inside the field ends a match. -/
theorem logoMatches_write_of_inside {m : Memory} (hwf : m.wf = true) {a x : Nat} {v : Byte} {ref : Vector Byte 48}
    (hx : x < m.len) (hin : a ≤ x ∧ x < a + 48) (hv : v ≠ m.byte x) (hmatch : logoMatches (m.field a 48) ref = true) :
    logoMatches ((m.write x v).field a 48) ref = false := by
  rw [Bool.eq_false_iff, ne_eq, logoMatches_field_iff]
  intro hafter
  obtain ⟨i, rfl⟩ := Nat.exists_eq_add_of_le hin.1
  have hnew : (m.write (a + i) v).byte (a + i) = ref[i] := hafter ⟨i, by omega⟩
  have hold : m.byte (a + i) = ref[i] := (logoMatches_field_iff m a ref).1 hmatch ⟨i, by omega⟩
  rw [Memory.byte_write_same hwf hx] at hnew
  exact hv (hnew.trans hold.symm)

/-! ## `LOGO_CHK` -/

/-- R115: the 48 raw bytes, and the verdict of the comparison. -/
theorem exec_logoChk_next {s : State} (hlong : 0x0150 ≤ s.inp.image.len) :
    exec .logoChk s =
      .next
        (s.withRegs
          (complete
            { s.regs with
              rbuf := Vector.ofFn fun i : Fin 48 => s.inp.image.byte (0x0104 + i)
              rlen := 48
              status :=
                { s.regs.status with
                  pass := decide (∀ i : Fin 48, s.inp.image.byte (0x0104 + i) = s.inp.refLogo[i]) } })) := by
  have hverdict : logoMatches (s.inp.image.field 0x0104 48) s.inp.refLogo =
      decide (∀ i : Fin 48, s.inp.image.byte (0x0104 + i) = s.inp.refLogo[i]) :=
    Bool.eq_iff_iff.2 (by rw [logoMatches_field_iff, decide_eq_true_iff])
  rw [← hverdict, ← fieldBuf_full _ _ s.regs.rbuf, ← writeRbuf_field]
  exact exec_logoChk hlong

/-- `PASS` after the one Exec step of `LOGO_CHK`. -/
theorem pass_of_exec_logoChk {s t : State} (hlong : 0x0150 ≤ s.inp.image.len) (hexec : exec .logoChk s = .next t) :
    t.regs.status.pass = logoMatches (s.inp.image.field 0x0104 48) s.inp.refLogo := by
  rw [exec_logoChk hlong] at hexec
  rw [← Host.Outcome.next.inj hexec]
  rfl

/-! ## Nibbles and bytes of the rendering -/

/-- R121: nibble `c` of row `r` of block `h` is the high (`r` even) or low (`r` odd) half of its byte. -/
theorem nibble_field (m : Memory) (h : Fin 2) (r : Fin 4) (c : Fin 12) :
    nibble (m.field 0x0104 48) h r c =
      let b := m.byte (0x0104 + 24 * h.val + 2 * c.val + r.val / 2)
      if r.val % 2 = 0 then hi4 b else lo4 b := by
  have hupper : (m.field 0x0104 48)[24 * h.val + 2 * c.val]? = some (m.byte (0x0104 + 24 * h + 2 * c)) := by
    rw [Memory.field_getElem? (by omega), ← Nat.add_assoc]
  have hlower : (m.field 0x0104 48)[24 * h.val + (2 * c.val + 1)]? = some (m.byte (0x0104 + 24 * h + 2 * c + 1)) := by
    rw [Memory.field_getElem? (by omega), ← Nat.add_assoc, ← Nat.add_assoc]
  match r with
  | 0 | 1 => simp [nibble, hupper]
  | 2 | 3 => simp [nibble, hlower]

theorem hi4_getLsbD (b : Byte) {i : Nat} (hi : i < 4) : (hi4 b).getLsbD i = b.getLsbD (4 + i) := by
  simp [hi4, hi]

theorem lo4_getLsbD (b : Byte) {i : Nat} (hi : i < 4) : (lo4 b).getLsbD i = b.getLsbD i := by
  simp [lo4, hi]

/-- The number of a byte put together from two halves. -/
theorem append_nibbles_toNat (x y : BitVec 4) : (x ++ y : BitVec 8).toNat = x.toNat * 16 + y.toNat := by
  simp only [BitVec.toNat_append]
  rw [← Nat.shiftLeft_add_eq_or_of_lt y.isLt, Nat.shiftLeft_eq]

/-- R120: the position `6*(4*h + r) + k` is that of byte `k` of row `r` of block `h`. -/
theorem renderByte_eq (logo : List Byte) (h : Fin 2) (r : Fin 4) (k : Fin 6) :
    renderByte logo (6 * (4 * h.val + r.val) + k.val) =
      (nibble logo h r (2 * k) ++ nibble logo h r (2 * k + 1) : BitVec 8) := by
  have hblock : (6 * (4 * h.val + r.val) + k.val) / 24 = h := by omega
  have hrow : (6 * (4 * h.val + r.val) + k.val) / 6 % 4 = r := by omega
  have hbyte : (6 * (4 * h.val + r.val) + k.val) % 6 = k := by omega
  simp only [renderByte, hblock, hrow, hbyte]

/-- `RBUF` after a rendering of the image's logo. -/
def renderedBuf (m : Memory) : Vector Byte 48 :=
  Vector.ofFn fun j : Fin 48 => renderByte (m.field 0x0104 48) j

theorem writeRbuf_renderLogo (m : Memory) (old : Vector Byte 48) :
    writeRbuf old (renderLogo (m.field 0x0104 48)) = renderedBuf m := by
  ext i hi : 1
  simp [writeRbuf_getElem, renderLogo, renderedBuf, hi]

theorem renderedBuf_getElem (m : Memory) (h : Fin 2) (r : Fin 4) (k : Fin 6) :
    (renderedBuf m)[6 * (4 * h.val + r.val) + k.val]'(by omega) =
      (nibble (m.field 0x0104 48) h r (2 * k) ++ nibble (m.field 0x0104 48) h r (2 * k + 1) : BitVec 8) := by
  rw [← renderByte_eq]
  simp [renderedBuf]

/-- R120, R121 as numbers: the byte from the two halves it shows. -/
theorem renderedBuf_getElem_toNat (m : Memory) (h : Fin 2) (r : Fin 4) (k : Fin 6) :
    let half (c : Nat) : Nat :=
      let b := (m.byte (0x0104 + 24 * h.val + 2 * c + r.val / 2)).toNat
      if r.val % 2 = 0 then b / 16 else b % 16
    ((renderedBuf m)[6 * (4 * h.val + r.val) + k.val]'(by omega)).toNat =
      half (2 * k) * 16 + half (2 * k + 1) := by
  have heven := nibble_field m h r ⟨2 * k, by omega⟩
  have hodd := nibble_field m h r ⟨2 * k + 1, by omega⟩
  simp only at heven hodd
  rw [renderedBuf_getElem, append_nibbles_toNat, heven, hodd]
  split
  · simp only [hi4_toNat]
  · simp only [lo4_toNat]

/-- R122: cell `4*c + j` shows bit `3 - j` of nibble `c`; the even nibble is the left half of its byte. -/
theorem renderedCell_eq {g : Regs} {m : Memory} (hbuf : g.rbuf = renderedBuf m) (h : Fin 2) (r : Fin 4) (c : Fin 12)
    (j : Fin 4) :
    g.cell (4 * h + r) (4 * c + j) = (nibble (m.field 0x0104 48) h r c).getLsbD (3 - j) := by
  have hindex : (4 * c.val + j) / 8 = c / 2 := by omega
  have hbyte := renderedBuf_getElem m h r ⟨c / 2, by omega⟩
  simp only at hbyte
  rw [Regs.cell, hbuf, hindex, List.getD_eq_getElem _ _ (by rw [Vector.length_toList]; omega),
    Vector.getElem_toList, hbyte, BitVec.getLsbD_append]
  rcases Nat.mod_two_eq_zero_or_one c with heven | hodd
  · have hbit : 7 - (4 * c.val + j) % 8 = 4 + (3 - j) := by omega
    have hnibble : 2 * (c.val / 2) = c := by omega
    rw [hbit, if_neg (by omega), Nat.add_sub_cancel_left, hnibble]
  · have hbit : 7 - (4 * c.val + j) % 8 = 3 - j := by omega
    have hnibble : 2 * (c.val / 2) + 1 = c := by omega
    rw [hbit, if_pos (by omega), hnibble]

/-! ## `LOGO_RENDER` -/

/-- R120: the rendering of the image's own logo bytes. -/
theorem exec_logoRender_next {s : State} (hlong : 0x0150 ≤ s.inp.image.len) :
    exec .logoRender s =
      .next (s.withRegs (complete { s.regs with rbuf := renderedBuf s.inp.image, rlen := 48 })) := by
  rw [← writeRbuf_renderLogo _ s.regs.rbuf]
  exact exec_logoRender hlong

/-! ## The statements -/

/-- Settles O23: the one Exec step of `LOGO_CHK`, taken from any state and from the state an issue left. -/
theorem logoCheckCommand : Obligations.LogoCheckCommand := by
  refine ⟨fun s hlong => ?step, fun s hidle hlong => ?run, faultsOnShortImage_opcode .logoChk⟩
  case step => exact exec_logoChk_next hlong
  case run =>
    exact runs_one_of_exec_justIssued (i := .logoChk) hidle hlong rfl
      (exec_logoChk_next (s := s.justIssued 0x01) hlong)

/-- Settles O24: the one Exec step of `LOGO_RENDER`, taken from any state and from the state an issue left, leaves
`renderedBuf`, whose bytes are the pairs of nibbles. -/
theorem logoRenderCommand : Obligations.LogoRenderCommand := by
  refine ⟨fun s hlong => ⟨renderedBuf s.inp.image, renderedBuf_getElem_toNat _, ?step⟩,
    fun s hidle hlong => ⟨renderedBuf s.inp.image, renderedBuf_getElem_toNat _, ?run⟩,
    faultsOnShortImage_opcode .logoRender⟩
  case step => exact exec_logoRender_next hlong
  case run =>
    exact runs_one_of_exec_justIssued (i := .logoRender) hidle hlong rfl
      (exec_logoRender_next (s := s.justIssued 0x0E) hlong)

/-- Settles O39: the verdict is `logoMatches` of the logo field, which a write outside leaves as it was and a change
inside makes differ from a reference it matched. -/
theorem logoVerdictIsEquality : Obligations.LogoVerdictIsEquality := by
  intro s t hlong hexec
  have hpass := pass_of_exec_logoChk hlong hexec
  refine ⟨?equality, fun a v t' hwf ha hexec' => ?_⟩
  case equality =>
    rw [hpass]
    exact logoMatches_iff _ _
  have hpass' := pass_of_exec_logoChk (by simpa using hlong) hexec'
  refine ⟨fun hout => ?outside, fun hin hv hmatch => ?inside⟩
  case outside => rw [hpass, hpass', Memory.field_write_of_outside hwf v (by omega)]
  case inside =>
    rw [hpass']
    exact logoMatches_write_of_inside hwf ha (by omega) hv (hpass ▸ hmatch)

/-- Settles O40: a cell is a bit of its nibble, and the nibble is a half of its byte. -/
theorem renderedCells : Obligations.RenderedCells := by
  intro s t hlong hexec h r c j
  rw [exec_logoRender_next hlong] at hexec
  have hbuf : t.regs.rbuf = renderedBuf s.inp.image := by rw [← Host.Outcome.next.inj hexec]; rfl
  rw [renderedCell_eq hbuf, nibble_field]
  split
  · rw [hi4_getLsbD _ (by omega), show 4 + (3 - j.val) = 7 - j by omega]
  · rw [lo4_getLsbD _ (by omega)]

end Sys2Proof.Machine
end

section
/-! PROOFS. The header checksum `HDR_CHK` (spec/44_header_checksum.md, R130 to R138): the updates as integers reduced,
the running accumulator `hdrAccAfter` step by step, the whole run of 26 Exec steps, and the statements. -/

namespace Sys2Proof.Machine

/-! ## The updates as arithmetic -/

/-- R132: the subtraction in the integers, reduced to 0 to 255. -/
theorem hdrUpdate_eq_ofInt (acc b : Byte) : hdrUpdate acc b = BitVec.ofInt 8 ((acc.toNat : Int) - b.toNat - 1) := by
  apply BitVec.eq_of_toNat_eq
  simp only [hdrUpdate, BitVec.toNat_sub, BitVec.toNat_ofInt, BitVec.ofNat_eq_ofNat, BitVec.toNat_ofNat]
  omega

theorem hdrUpdate_toNat (acc b : Byte) :
    (hdrUpdate acc b).toNat = (((acc.toNat : Int) - b.toNat - 1) % 256).toNat := by
  rw [hdrUpdate_eq_ofInt, BitVec.toNat_ofInt]
  rfl

/-- R134: subtracting a byte and one is adding its complement. -/
theorem hdrUpdate_eq_add_complement (acc b : Byte) : hdrUpdate acc b = acc + (255 - b) := by
  have hminusOne : (255 : Byte) = -1 := rfl
  rw [hdrUpdate, hminusOne]
  ring

/-- R134: the complement of a byte flips each of its bits. -/
theorem xor_FF_eq_complement (b : Byte) : b ^^^ 0xFF = 255 - b := by
  rw [show (0xFF : Byte) = BitVec.allOnes 8 from rfl, BitVec.xor_allOnes, ← BitVec.allOnes_sub_eq_not]

theorem glbUpdate_toNat (sum : Half) (b : Byte) : (glbUpdate sum b).toNat = (sum.toNat + b.toNat) % 65536 := by
  rw [glbUpdate, BitVec.toNat_add, zext16_toNat]

/-! ## The running accumulator -/

theorem ofInt8_eq_of_emod_eq {x y : Int} (h : x % 256 = y % 256) : BitVec.ofInt 8 x = BitVec.ofInt 8 y := by
  apply BitVec.eq_of_toNat_eq
  simp only [BitVec.toNat_ofInt]
  exact congrArg Int.toNat h

theorem byteSum_bytes (m : Memory) (a n : Nat) :
    byteSum (m.bytes a n) = ((List.range n).map fun j => (m.byte (a + j)).toNat).sum := by
  rw [byteSum, Memory.bytes, List.map_map]
  rfl

theorem byteSum_bytes_succ (m : Memory) (a n : Nat) :
    byteSum (m.bytes a (n + 1)) = byteSum (m.bytes a n) + (m.byte (a + n)).toNat := by
  simp [byteSum_bytes, List.range_succ]

@[simp] theorem hdrAccAfter_zero (m : Memory) : hdrAccAfter m 0 = 0 := rfl

/-- R135: one more byte is one more update. -/
theorem hdrAccAfter_succ (m : Memory) (k : Nat) :
    hdrAccAfter m (k + 1) = hdrUpdate (hdrAccAfter m k) (m.byte (0x0134 + k)) := by
  rw [hdrUpdate_eq_ofInt, hdrAccAfter, hdrAccAfter, byteSum_bytes_succ]
  apply ofInt8_eq_of_emod_eq
  rw [BitVec.toNat_ofInt]
  omega

/-- R130: the accumulator as the fold of the integer update over the bytes in ascending order. -/
theorem foldl_update_eq_hdrAccAfter (m : Memory) (k : Nat) :
    (List.range k).foldl
        (fun (acc : Byte) j => BitVec.ofInt 8 ((acc.toNat : Int) - (m.byte (0x0134 + j)).toNat - 1)) 0 =
      hdrAccAfter m k := by
  induction k with
  | zero => rfl
  | succ k ih =>
    rw [List.range_succ, List.foldl_append, ih, hdrAccAfter_succ, hdrUpdate_eq_ofInt]
    rfl

/-- R136: 25 subtractions of one from 0 leave 0xE7. -/
theorem hdrAccAfter_25 (m : Memory) :
    hdrAccAfter m 25 =
      BitVec.ofInt 8 (0xE7 - (((List.range 25).map fun j => (m.byte (0x0134 + j)).toNat).sum : Nat)) := by
  rw [hdrAccAfter, byteSum_bytes]
  apply ofInt8_eq_of_emod_eq
  omega

/-- A write outside the first `k` bytes of the range leaves their accumulator as it was. -/
theorem hdrAccAfter_write_of_outside {m : Memory} (hwf : m.wf = true) {a k : Nat} (v : Byte)
    (hout : ¬(0x0134 ≤ a ∧ a < 0x0134 + k)) : hdrAccAfter (m.write a v) k = hdrAccAfter m k := by
  have hbytes : (m.write a v).bytes 0x0134 k = m.bytes 0x0134 k := Memory.field_write_of_outside hwf v hout
  rw [hdrAccAfter, hbytes, hdrAccAfter]

/-! ## The run -/

/-- A run of one command, continued by one more of its Exec steps. -/
theorem Runs.snoc {s : State} {c : Byte} {n : Nat} {i : Instr} {r r' : Regs} (h : Runs s c n r)
    (hbusy : r.status.busy = true) (hop : r.op = opcode i) (hexec : exec i (s.withRegs r) = .next (s.withRegs r')) :
    Runs s c (n + 1) r' :=
  Execs.trans (runs_iff_execs.1 h) (Execs.step hbusy hop hexec (execs_zero.2 rfl))

/-- The registers of a running `HDR_CHK`: its index and its accumulator, all else as issue left it (R22, R131). -/
def hdrRunning (addr : Nat) (acc : Byte) : Regs :=
  { Regs.cleared 0x0C with
    addr := addr
    acc8 := acc
    status := { Status.zero with busy := true } }

/-- The registers a completed `HDR_CHK` leaves, from its accumulator and the target byte (R130). -/
def hdrCompleted (acc target : Byte) : Regs :=
  { Regs.cleared 0x0C with
    acc8 := acc
    res := BitVec.ofNat 16 acc.toNat
    tgt := BitVec.ofNat 16 target.toNat
    addr := 0x014D
    status := { Status.zero with pass := decide (acc = target), done := true } }

@[simp] theorem hdrCompleted_acc8 (acc target : Byte) : (hdrCompleted acc target).acc8 = acc := rfl

@[simp] theorem hdrCompleted_pass (acc target : Byte) :
    (hdrCompleted acc target).status.pass = decide (acc = target) := rfl

section run
variable {s : State} (hidle : s.regs.status.busy = false) (hlong : 0x0150 ≤ s.inp.image.len)
include hlong

/-- R131: a step inside the range takes the byte at the index. -/
theorem exec_hdrRunning_accumulating {a : Nat} (ha : a ≤ 0x014C) (acc : Byte) :
    exec .hdrChk (s.withRegs (hdrRunning a acc)) =
      .next (s.withRegs (hdrRunning (a + 1) (hdrUpdate acc (s.inp.image.byte a)))) :=
  exec_hdrChk_accumulating (s := s.withRegs (hdrRunning a acc)) hlong ha

/-- R131: the step past the range completes. -/
theorem exec_hdrRunning_completing (acc : Byte) :
    exec .hdrChk (s.withRegs (hdrRunning 0x014D acc)) =
      .next (s.withRegs (hdrCompleted acc (s.inp.image.byte 0x014D))) := by
  rw [exec_hdrChk_completing (s := s.withRegs (hdrRunning 0x014D acc)) hlong (Nat.lt_succ_self 0x014C), zext16_eq,
    zext16_eq]
  rfl

include hidle

/-- R135: the registers after the issue and `k` accumulating steps. -/
theorem runs_hdrRunning {k : Nat} (hk : k ≤ 25) :
    Runs s 0x0C k (hdrRunning (0x0134 + k) (hdrAccAfter s.inp.image k)) := by
  induction k with
  | zero =>
    rw [runs_iff_execs, execs_zero, hdrAccAfter_zero]
    exact (issue_start hidle (decodeByte_opcode .hdrChk) hlong).symm
  | succ k ih =>
    rw [hdrAccAfter_succ]
    exact (ih (by omega)).snoc rfl rfl (exec_hdrRunning_accumulating hlong (by omega) _)

/-- R130: the whole run, 25 accumulating steps and the completing one. -/
theorem runs_hdrCompleted :
    Runs s 0x0C 26 (hdrCompleted (hdrAccAfter s.inp.image 25) (s.inp.image.byte 0x014D)) :=
  (runs_hdrRunning hidle hlong le_rfl).snoc rfl rfl (exec_hdrRunning_completing hlong _)

end run

/-! ## The statements -/

/-- Settles O28: the whole run leaves `hdrCompleted`, whose accumulator is the fold over the bytes and, with 25 ones
subtracted from 0, `0xE7` less their sum. -/
theorem headerChecksumCommand : Obligations.HeaderChecksumCommand := by
  refine ⟨fun s hidle hlong => ?_, faultsOnShortImage_opcode .hdrChk⟩
  dsimp only
  rw [foldl_update_eq_hdrAccAfter]
  exact ⟨runs_hdrCompleted hidle hlong, hdrAccAfter_25 s.inp.image⟩

/-- Settles O34: the byte at 0x014D is outside the range, so writing it leaves the accumulator as it was and makes it
the target. -/
theorem headerChecksumRoundTrip : Obligations.HeaderChecksumRoundTrip := by
  intro s r1 hidle hlong hwf hrun
  have hacc1 : r1.acc8 = hdrAccAfter s.inp.image 25 := by
    rw [hrun.unique (runs_hdrCompleted hidle hlong), hdrCompleted_acc8]
  have hacc2 : hdrAccAfter (s.inp.image.write 0x014D r1.acc8) 25 = r1.acc8 := by
    rw [hdrAccAfter_write_of_outside hwf _ (by omega), hacc1]
  have hrun2 := runs_hdrCompleted (s := { s with inp := { s.inp with image := s.inp.image.write 0x014D r1.acc8 } })
    hidle (by simpa using hlong)
  refine ⟨_, hrun2, ?pass, hacc2⟩
  case pass => rw [hdrCompleted_pass, hacc2, Memory.byte_write_same hwf (by omega), decide_eq_true_iff]

/-- Settles O31: each update as its integer expression reduced; adding the complement, by subtraction or bit by bit,
is the same update. -/
theorem updateArithmetic : Obligations.UpdateArithmetic := by
  refine ⟨fun acc b => ⟨hdrUpdate_toNat acc b, ?xor, hdrUpdate_eq_add_complement acc b⟩, glbUpdate_toNat⟩
  case xor => rw [xor_FF_eq_complement, hdrUpdate_eq_add_complement]

end Sys2Proof.Machine
end

section
/-! PROOFS. The global checksum `GLB_CHK` (spec/45_global_checksum.md, R145 to R150): what each address adds to the sum,
the running sum `glbSumAfter` step by step, the whole run of `LEN + 1` Exec steps, and the statement. -/

namespace Sys2Proof.Machine

/-! ## The running sum -/

theorem excluded_iff (a : Nat) : excluded a = true ↔ a = 0x014E ∨ a = 0x014F := by
  simp [excluded, Layout.glbSum]

/-- What address `a` adds to the global sum: its byte, and nothing at the two excluded addresses (R149). -/
def glbSummand (m : Memory) (a : Nat) : Nat := if a = 0x014E ∨ a = 0x014F then 0 else (m.byte a).toNat

/-- R146, R148: the two branches of a step before the end, as one addition of the summand. -/
theorem glbStep_eq_add_summand (m : Memory) (a : Nat) (sum : Half) :
    (if excluded a then sum else glbUpdate sum (m.byte a)) = BitVec.ofNat 16 (sum.toNat + glbSummand m a) := by
  apply BitVec.eq_of_toNat_eq
  simp only [excluded_iff, glbSummand, BitVec.toNat_ofNat]
  split
  · exact (Nat.mod_eq_of_lt sum.isLt).symm
  · exact glbUpdate_toNat sum (m.byte a)

theorem byteSum_summedBytes_succ (m : Memory) (k : Nat) :
    byteSum (summedBytes m (k + 1)) = byteSum (summedBytes m k) + glbSummand m k := by
  by_cases hk : k = 0x014E ∨ k = 0x014F
  · have hskip : ¬(k ≠ 0x014E ∧ k ≠ 0x014F) := by omega
    simp [byteSum, summedBytes, List.range_succ, glbSummand, hk, hskip]
  · have htake : k ≠ 0x014E ∧ k ≠ 0x014F := by omega
    simp [byteSum, summedBytes, List.range_succ, glbSummand, htake]

theorem byteSum_summedBytes (m : Memory) (k : Nat) :
    byteSum (summedBytes m k) = ((List.range k).map (glbSummand m)).sum := by
  induction k with
  | zero => rfl
  | succ k ih => simp [byteSum_summedBytes_succ, ih, List.range_succ]

@[simp] theorem glbSumAfter_zero (m : Memory) : glbSumAfter m 0 = 0 := rfl

/-- R147: one more address is one more addition. -/
theorem glbSumAfter_succ (m : Memory) (k : Nat) :
    glbSumAfter m (k + 1) = BitVec.ofNat 16 ((glbSumAfter m k).toNat + glbSummand m k) := by
  rw [glbSumAfter, byteSum_summedBytes_succ, glbSumAfter]
  apply BitVec.eq_of_toNat_eq
  simp only [BitVec.toNat_ofNat]
  omega

/-- R145: the sum as the fold of the reduced addition over the addresses in ascending order. -/
theorem foldl_add_eq_glbSumAfter (m : Memory) (k : Nat) :
    (List.range k).foldl (fun (sum : Half) a => BitVec.ofNat 16 (sum.toNat + glbSummand m a)) 0 = glbSumAfter m k := by
  induction k with
  | zero => rfl
  | succ k ih =>
    rw [List.range_succ, List.foldl_append, ih, glbSumAfter_succ]
    rfl

/-- R150: the integer sum, reduced once. -/
theorem glbSumAfter_eq_ofNat_sum (m : Memory) (k : Nat) :
    glbSumAfter m k = BitVec.ofNat 16 ((List.range k).map (glbSummand m)).sum := by
  rw [glbSumAfter, byteSum_summedBytes]

/-! ## The run -/

/-- R145: the verdict, as an equality of integers. -/
theorem glbVerdict_bigEndian16 (sum : Half) (b0 b1 : Byte) :
    glbVerdict sum (bigEndian16 b0 b1) = decide (sum.toNat = b0.toNat * 256 + b1.toNat) := by
  rw [Bool.eq_iff_iff, decide_eq_true_iff, glbVerdict, beq_iff_eq, ← bigEndian16_toNat, BitVec.toNat_inj]

/-- The registers of a running `GLB_CHK`: its index and its sum, all else as issue left it (R22, R146). -/
def glbRunning (addr : Nat) (sum : Half) : Regs :=
  { Regs.cleared 0x0D with
    addr := addr
    sum16 := sum
    status := { Status.zero with busy := true } }

/-- The registers a completed `GLB_CHK` leaves, from the image length, its sum and the target (R145). -/
def glbCompleted (len : Nat) (sum : Half) (target : Nat) : Regs :=
  { Regs.cleared 0x0D with
    sum16 := sum
    res := sum
    tgt := BitVec.ofNat 16 target
    addr := len
    status := { Status.zero with pass := decide (sum.toNat = target), done := true } }

/-- The big-endian target of the global checksum, at 0x014E and 0x014F (R44, R47). -/
def glbTarget (m : Memory) : Nat := (m.byte 0x014E).toNat * 256 + (m.byte 0x014F).toNat

section run
variable {s : State} (hidle : s.regs.status.busy = false) (hlong : 0x0150 ≤ s.inp.image.len)

/-- R146: a step inside the image adds the summand of the address at the index. -/
theorem exec_glbRunning_reading {a : Nat} (ha : a < s.inp.image.len) (sum : Half) :
    exec .glbChk (s.withRegs (glbRunning a sum)) =
      .next (s.withRegs (glbRunning (a + 1) (BitVec.ofNat 16 (sum.toNat + glbSummand s.inp.image a)))) := by
  rw [exec_glbChk_reading (s := s.withRegs (glbRunning a sum)) ha, ← glbStep_eq_add_summand]
  rfl

include hlong

/-- R146: the step at the end of the image completes. -/
theorem exec_glbRunning_completing (sum : Half) :
    exec .glbChk (s.withRegs (glbRunning s.inp.image.len sum)) =
      .next (s.withRegs (glbCompleted s.inp.image.len sum (glbTarget s.inp.image))) := by
  rw [exec_glbChk_completing (s := s.withRegs (glbRunning s.inp.image.len sum)) hlong le_rfl]
  dsimp only
  rw [glbVerdict_bigEndian16, bigEndian16_eq]
  rfl

include hidle

/-- R147: the registers after the issue and `k` accumulating or skipping steps. -/
theorem runs_glbRunning {k : Nat} (hk : k ≤ s.inp.image.len) :
    Runs s 0x0D k (glbRunning k (glbSumAfter s.inp.image k)) := by
  induction k with
  | zero =>
    rw [runs_iff_execs, execs_zero, glbSumAfter_zero]
    exact (issue_start hidle (decodeByte_opcode .glbChk) hlong).symm
  | succ k ih =>
    rw [glbSumAfter_succ]
    exact (ih (by omega)).snoc rfl rfl (exec_glbRunning_reading hk _)

/-- R145: the whole run, one step for each address of the image and the completing one. -/
theorem runs_glbCompleted :
    Runs s 0x0D (s.inp.image.len + 1)
      (glbCompleted s.inp.image.len (glbSumAfter s.inp.image s.inp.image.len) (glbTarget s.inp.image)) :=
  (runs_glbRunning hidle hlong le_rfl).snoc rfl rfl (exec_glbRunning_completing hlong _)

end run

/-! ## The statement -/

/-- Settles O30: the whole run leaves `glbCompleted`, whose sum is the fold over all addresses in ascending order and
the integer sum of the summands, reduced. -/
theorem globalChecksumCommand : Obligations.GlobalChecksumCommand := by
  refine ⟨fun s hidle hlong => ?_, faultsOnShortImage_opcode .glbChk⟩
  intro b sum target
  have hsum : sum = glbSumAfter s.inp.image s.inp.image.len := foldl_add_eq_glbSumAfter s.inp.image _
  rw [hsum]
  exact ⟨runs_glbCompleted hidle hlong, glbSumAfter_eq_ofNat_sum s.inp.image _⟩

end Sys2Proof.Machine
end

section
/-! PROOFS. The fault record (spec/60_exceptions.md, R182 to R186): the `STATUS` word of each fault and of the start
of a command, the words R182 calls illegal, and which of the three an issue leaves. -/

namespace Sys2Proof.Machine

/-! ## The `STATUS` words an issue leaves -/

/-- R13, R185: a fault record on a cleared block is `DONE` and `FAULT`, with the code in bits 9:8. -/
theorem word_raiseFault_cleared (code : FaultCode) (c : Byte) :
    (raiseFault code (Regs.cleared c)).status.word = BitVec.ofNat 16 (0x0082 + 0x0100 * code.code) := by
  simp [raiseFault, Regs.cleared, Status.zero, Status.word]

/-- R13, R19: of a command's start, `STATUS` shows `BUSY` alone. -/
theorem word_zero_busy : Status.word { Status.zero with busy := true } = 0x0001 := by decide

/-! ## The illegal words -/

/-- R65, R182: a word is 0x00 or from 0x0F on exactly when it is outside the range of the 14 opcodes. -/
theorem illegalWord_iff {c : Byte} : c = 0x00 ∨ 0x0F ≤ c.toNat ↔ ¬(1 ≤ c.toNat ∧ c.toNat ≤ 14) := by
  have hzero : c = 0x00 ↔ c.toNat = 0 := BitVec.toNat_eq
  rw [hzero]
  omega

/-! ## The statement -/

/-- Settles O9: the word decides first (R186), then the length of the image; each case is one of the `issue_`
lemmas. -/
theorem faultsOfAnIssue : Obligations.FaultsOfAnIssue := by
  intro s c ts hidle hs
  have hstep := step_issue hs
  rw [illegalWord_iff, not_not]
  refine ⟨fun hc => ?illegal, fun hc hlen => ?short, fun hc hlen => ?start⟩
  case illegal =>
    rw [issue_illegal hidle (decodeByte_of_not_range hc)] at hstep
    exact ⟨_, hstep, word_raiseFault_cleared _ c, rfl, rfl⟩
  case short =>
    obtain ⟨i, hi, -⟩ := exists_decodeByte_of_range hc
    rw [issue_short hidle hi hlen] at hstep
    exact ⟨_, hstep, word_raiseFault_cleared _ c, rfl, rfl⟩
  case start =>
    obtain ⟨i, hi, -⟩ := exists_decodeByte_of_range hc
    rw [issue_start hidle hi hlen] at hstep
    exact ⟨_, hstep, word_zero_busy, rfl⟩

end Sys2Proof.Machine
end

section
/-! PROOFS. The length of a run (spec/70_reset_and_hazards.md, R209): the number of Exec steps of each issue, the
commands whose first Exec step completes, and the statement that `DONE` comes after exactly that many steps. -/

namespace Sys2Proof.Machine

/-! ## The number of Exec steps -/

theorem execSteps_illegal {c : Byte} {e : Reject} (hc : decodeByte c = .error e) (x : Inputs) : execSteps c x = 0 := by
  rw [execSteps, hc]

theorem execSteps_short (i : Instr) {x : Inputs} (hshort : x.image.len < 0x0150) : execSteps (opcode i) x = 0 := by
  rw [execSteps, decodeByte_opcode]
  exact if_pos hshort

section
variable {x : Inputs} (hlong : 0x0150 ≤ x.image.len)
include hlong

theorem execSteps_hdrChk : execSteps (opcode .hdrChk) x = 26 :=
  if_neg (Nat.not_lt.2 hlong)

theorem execSteps_glbChk : execSteps (opcode .glbChk) x = x.image.len + 1 :=
  if_neg (Nat.not_lt.2 hlong)

/-- R209: every command but the two checksums takes one Exec step. -/
theorem execSteps_singleStep {i : Instr} (hhdr : i ≠ .hdrChk) (hglb : i ≠ .glbChk) : execSteps (opcode i) x = 1 := by
  rw [execSteps, decodeByte_opcode]
  refine (if_neg (Nat.not_lt.2 hlong)).trans ?_
  cases i with
  | hdrChk => exact absurd rfl hhdr
  | glbChk => exact absurd rfl hglb
  | _ => rfl

end

/-! ## The commands of one Exec step -/

/-- R209: from any state, the Exec step of a command other than the two checksums completes it and keeps `OP`. -/
theorem exec_singleStep_completes {i : Instr} (hhdr : i ≠ .hdrChk) (hglb : i ≠ .glbChk) {s : State}
    (hlong : 0x0150 ≤ s.inp.image.len) :
    ∃ r, exec i s = .next (s.withRegs (complete r)) ∧ r.op = s.regs.op := by
  cases i with
  | hdrChk => exact absurd rfl hhdr
  | glbChk => exact absurd rfl hglb
  | logoChk => exact ⟨_, exec_logoChk_next hlong, rfl⟩
  | title => exact ⟨_, exec_title_next hlong, rfl⟩
  | manuf =>
    by_cases hzero : ∀ i : Fin 4, s.inp.image.byte (0x013F + i) = 0
    · exact ⟨_, exec_manuf_notApplicable hlong hzero, rfl⟩
    · exact ⟨_, exec_manuf_marked hlong hzero, rfl⟩
  | cgb => exact ⟨_, isRawField_cgb.exec_next hlong, rfl⟩
  | sgb => exact ⟨_, isRawField_sgb.exec_next hlong, rfl⟩
  | publisher =>
    by_cases hnew : s.inp.image.byte 0x014B = 0x33
    · exact ⟨_, exec_publisher_new hlong hnew, rfl⟩
    · exact ⟨_, exec_publisher_old hlong hnew 0, rfl⟩
  | cart => exact ⟨_, isByteLookup_cart.exec_next hlong, rfl⟩
  | romsz => exact ⟨_, isByteLookup_romsz.exec_next hlong, rfl⟩
  | ramsz => exact ⟨_, isByteLookup_ramsz.exec_next hlong, rfl⟩
  | dest => exact ⟨_, isByteLookup_dest.exec_next hlong, rfl⟩
  | maskver => exact ⟨_, isRawField_maskver.exec_next hlong, rfl⟩
  | logoRender => exact ⟨_, exec_logoRender_next hlong, rfl⟩

/-! ## Completion after `n` Exec steps and not before -/

/-- The issue of `c` from `s` has completed after `n` Exec steps, and after fewer it is still in progress. -/
def CompletesAfter (s : State) (c : Byte) (n : Nat) : Prop :=
  (∃ r, Runs s c n r ∧ r.status.done = true ∧ r.status.busy = false ∧ r.op = c) ∧
  ∀ k, k < n → ∃ r, Runs s c k r ∧ r.status.done = false ∧ r.status.busy = true

/-- With no Exec step, the registers are those the issue left. -/
theorem runs_zero (s : State) (c : Byte) : Runs s c 0 (issue c s.inp.image.len s.regs) :=
  runs_iff_execs.2 (execs_zero.2 rfl)

section
variable {s : State}

/-- R185: a fault record is complete with the issue itself. -/
theorem completesAfter_zero_of_fault {c : Byte} {code : FaultCode}
    (hissue : issue c s.inp.image.len s.regs = raiseFault code (Regs.cleared c)) : CompletesAfter s c 0 :=
  ⟨⟨_, hissue ▸ runs_zero s c, rfl, rfl, rfl⟩, fun _ hk => absurd hk (Nat.not_lt_zero _)⟩

variable (hidle : s.regs.status.busy = false)
include hidle

theorem completesAfter_illegal {c : Byte} {e : Reject} (hc : decodeByte c = .error e) : CompletesAfter s c 0 :=
  completesAfter_zero_of_fault (issue_illegal hidle hc _)

theorem completesAfter_short (i : Instr) (hshort : s.inp.image.len < 0x0150) : CompletesAfter s (opcode i) 0 :=
  completesAfter_zero_of_fault (issue_short hidle (decodeByte_opcode i) hshort)

variable (hlong : 0x0150 ≤ s.inp.image.len)
include hlong

theorem completesAfter_singleStep {i : Instr} (hhdr : i ≠ .hdrChk) (hglb : i ≠ .glbChk) :
    CompletesAfter s (opcode i) 1 := by
  have hissue := issue_start hidle (decodeByte_opcode i) hlong
  refine ⟨?complete, fun k hk => ?running⟩
  case complete =>
    obtain ⟨r, hexec, hop⟩ := exec_singleStep_completes hhdr hglb
      (s := s.withRegs (issue (opcode i) s.inp.image.len s.regs)) hlong
    refine ⟨complete r, runs_single hidle hlong hexec, rfl, rfl, hop.trans ?_⟩
    exact congrArg Regs.op hissue
  case running =>
    obtain rfl : k = 0 := Nat.lt_one_iff.1 hk
    exact ⟨_, hissue ▸ runs_zero s (opcode i), rfl, rfl⟩

theorem completesAfter_hdrChk : CompletesAfter s 0x0C 26 :=
  ⟨⟨_, runs_hdrCompleted hidle hlong, rfl, rfl, rfl⟩,
    fun _ hk => ⟨_, runs_hdrRunning hidle hlong (Nat.le_of_lt_succ hk), rfl, rfl⟩⟩

theorem completesAfter_glbChk : CompletesAfter s 0x0D (s.inp.image.len + 1) :=
  ⟨⟨_, runs_glbCompleted hidle hlong, rfl, rfl, rfl⟩,
    fun _ hk => ⟨_, runs_glbRunning hidle hlong (Nat.le_of_lt_succ hk), rfl, rfl⟩⟩

end

/-! ## The statement -/

/-- Settles O47: the word decides first, then the length of the image, then which command it is. -/
theorem everyCommandCompletes : Obligations.EveryCommandCompletes := by
  intro s c hidle
  show CompletesAfter s c (execSteps c s.inp)
  obtain ⟨i, -, rfl⟩ | hillegal := decodeByte_cases c
  case inr =>
    rw [execSteps_illegal hillegal]
    exact completesAfter_illegal hidle hillegal
  obtain hshort | hlong := Nat.lt_or_ge s.inp.image.len 0x0150
  case inl =>
    rw [execSteps_short i hshort]
    exact completesAfter_short hidle i hshort
  obtain rfl | hhdr := eq_or_ne i .hdrChk
  case inl =>
    rw [execSteps_hdrChk hlong]
    exact completesAfter_hdrChk hidle hlong
  obtain rfl | hglb := eq_or_ne i .glbChk
  case inl =>
    rw [execSteps_glbChk hlong]
    exact completesAfter_glbChk hidle hlong
  rw [execSteps_singleStep hlong hhdr hglb]
  exact completesAfter_singleStep hidle hlong hhdr hglb

end Sys2Proof.Machine
end

section
/-! PROOFS. Decoding and encoding (spec/30_encoding.md, R60 to R70): a word is a command exactly when it is the
command's opcode, byte sequences and sequences of commands determine each other, and the lines of a source text
assemble one after the other. -/

namespace Sys2Proof.Machine

/-! ## Words and byte sequences -/

/-- R62, R63: the word of a command and no other word decodes to it. -/
theorem decodeByte_ok_iff {c : Byte} {i : Instr} : decodeByte c = .ok i ↔ c = opcode i := by
  constructor
  · intro h
    obtain ⟨j, hj, rfl⟩ | he := decodeByte_cases c
    · rw [h] at hj
      rw [Except.ok.inj hj]
    · rw [h] at he
      cases he
  · rintro rfl
    exact decodeByte_opcode i

theorem decodeBytes_ok_iff (bs : List Byte) (i : Instr) (rest : List Byte) :
    decodeBytes bs = .ok (i, rest) ↔ bs = encode i ++ rest := by
  cases bs with
  | nil => simp [decodeBytes, encode]
  | cons c cs =>
    rw [encode, List.singleton_append, List.cons.injEq, ← decodeByte_ok_iff]
    cases hc : decodeByte c <;> simp [decodeBytes, hc]

theorem assemble_cons (i : Instr) (is : List Instr) : assemble (i :: is) = opcode i :: assemble is := rfl

theorem disassemble_ok_iff (bs : List Byte) (is : List Instr) : disassemble bs = .ok is ↔ bs = assemble is := by
  induction bs generalizing is with
  | nil => cases is <;> simp [disassemble, assemble, encode]
  | cons c cs ih =>
    cases is with
    | nil =>
      simp only [disassemble, assemble, List.flatMap_nil, reduceCtorEq, iff_false]
      split <;> simp
    | cons i is =>
      rw [assemble_cons, List.cons.injEq, ← decodeByte_ok_iff, ← ih]
      cases hc : decodeByte c <;> cases hs : disassemble cs <;> simp [disassemble, hc, hs]

/-- Settles O3: both equivalences rest on `decodeByte_ok_iff`; the second is an induction over the bytes. -/
theorem decodeAndEncodeAgree : Obligations.DecodeAndEncodeAgree :=
  ⟨decodeBytes_ok_iff, disassemble_ok_iff⟩

/-- Settles O1: each written word is the opcode of its command. -/
theorem writtenWordsDecode : Obligations.WrittenWordsDecode := by
  simp only [Obligations.WrittenWordsDecode, decodeByte_ok_iff]
  decide

/-- Settles O2: the words in the range are the opcodes, the others are rejected. -/
theorem decodingIsTotal : Obligations.DecodingIsTotal := by
  refine fun c => ⟨fun hc => ?_, decodeByte_of_not_range⟩
  obtain ⟨i, hi, hop⟩ := exists_decodeByte_of_range hc
  exact ⟨i, hi, hop.symm⟩

/-! ## Source texts -/

/-- The characters of a mnemonic end no line, start no comment and are no blanks. -/
theorem mnemonic_chars (i : Instr) : ∀ c ∈ mnemonic i, c ≠ '\n' ∧ c ≠ ';' ∧ isBlank c = false := by
  cases i <;> simp [mnemonic, isBlank]

theorem splitLines_append_newline {l : Text} (h : '\n' ∉ l) (rest : Text) :
    splitLines (l ++ '\n' :: rest) = l :: splitLines rest := by
  induction l with
  | nil => rfl
  | cons c l ih =>
    obtain ⟨hc, hl⟩ := not_or.1 (mt List.mem_cons.2 h)
    rw [List.cons_append, splitLines, if_neg (Ne.symm hc), ih hl]

/-- What may stand after the mnemonic of a line: nothing, or a blank and a comment (R68). -/
def remark : Option Text → Text
  | none => []
  | some comment => ' ' :: ';' :: comment

theorem lineWord_mnemonic_remark (i : Instr) (comment : Option Text) :
    lineWord (mnemonic i ++ remark comment) = mnemonic i := by
  have hcode : ∀ c ∈ mnemonic i, (c != ';') = true := fun c hc => bne_iff_ne.2 (mnemonic_chars i c hc).2.1
  rw [lineWord, List.takeWhile_append_of_pos hcode]
  cases comment with
  | none => cases i <;> decide
  | some comment =>
    have hrest : (remark (some comment)).takeWhile (· != ';') = [' '] := by simp [remark]
    rw [hrest]
    cases i <;> decide

theorem assembleLine_mnemonic_remark (i : Instr) (comment : Option Text) :
    assembleLine (mnemonic i ++ remark comment) = some [opcode i] := by
  rw [assembleLine, lineWord_mnemonic_remark]
  cases i <;> decide

theorem newline_notMem_line {i : Instr} {comment : Option Text} (h : ∀ t, comment = some t → '\n' ∉ t) :
    '\n' ∉ mnemonic i ++ remark comment := by
  rw [List.mem_append, not_or]
  refine ⟨fun hm => (mnemonic_chars i _ hm).1 rfl, ?_⟩
  cases comment with
  | none => simp [remark]
  | some t => simpa [remark] using h t rfl

/-- Settles O4: by induction over the lines; the first line is split off and assembled, the rest follows it. -/
theorem sourceTextAssembles : Obligations.SourceTextAssembles := by
  intro lines hlines
  induction lines with
  | nil => rfl
  | cons l lines ih =>
    obtain ⟨hl, hrest⟩ := List.forall_mem_cons.1 hlines
    have hsplit := splitLines_append_newline (newline_notMem_line (i := l.1) hl)
    rw [List.flatMap_cons, List.append_assoc, List.singleton_append, assembleText]
    refine (congrArg assembleLines (hsplit _)).trans ?_
    have ih := ih hrest
    rw [assembleText] at ih
    rw [assembleLines, assembleLine_mnemonic_remark, ih]
    rfl

/-- Settles O5: the expansions are concrete sequences, and the two names concrete texts. -/
theorem pseudoCommandsExpand : Obligations.PseudoCommandsExpand := by
  unfold Obligations.PseudoCommandsExpand
  decide

end Sys2Proof.Machine
end

section
/-! PROOFS. The turns of the step (spec/10_state.md section 5, R18 to R23; spec/70_reset_and_hazards.md section 3): one
rule for each turn that is not an `Issue`, a `Read` or a `Reset`, and the statements about whose turn it is. -/

namespace Sys2Proof.Machine

/-! ## The rules -/

section
variable {s : State} {ts : List Turn}

theorem step_nil (hs : s.script = []) : step s = blockTurn s := by
  simp only [step, takeTurn, hs]

theorem step_exec (hs : s.script = .exec :: ts) : step s = blockTurn { s with script := ts } := by
  simp only [step, takeTurn, hs]

theorem step_present {x : Inputs} (hs : s.script = .present x :: ts) :
    step s = presentInputs x { s with script := ts } := by
  simp only [step, takeTurn, hs]

theorem step_awaitIdle_busy (hs : s.script = .awaitIdle :: ts) (hbusy : s.regs.status.busy = true) :
    step s = blockTurn s := by
  simp only [step, takeTurn, hs, hbusy, if_true]

theorem step_awaitIdle_idle (hs : s.script = .awaitIdle :: ts) (hidle : s.regs.status.busy = false) :
    step s = .next { s with script := ts } := by
  simp only [step, takeTurn, hs, hidle, Bool.false_eq_true, if_false]

theorem step_awaitDone_done (hs : s.script = .awaitDone :: ts) (hdone : s.regs.status.done = true) :
    step s = .next { s with script := ts } := by
  simp only [step, takeTurn, hs, hdone, if_true]

theorem step_awaitDone_notDone (hs : s.script = .awaitDone :: ts) (hdone : s.regs.status.done = false) :
    step s = blockTurn s := by
  simp only [step, takeTurn, hs, hdone, Bool.false_eq_true, if_false]

end

section
variable {s : State} {x : Inputs}

theorem presentInputs_changed_busy (hbusy : s.regs.status.busy = true) (hx : x ≠ s.inp) :
    presentInputs x s = .refused .inputsChangedWhileBusy :=
  if_pos ⟨hbusy, hx⟩

theorem presentInputs_allowed (h : s.regs.status.busy = true → x = s.inp) :
    presentInputs x s =
      if x.wf s.par then .next { s with inp := x } else .refused .inputsOutsideConstraints :=
  if_neg fun ⟨hbusy, hx⟩ => hx (h hbusy)

end

/-! ## The statements -/

/-- Settles O6: on each of the four scripts the step is the block's turn, which runs the command of `OP`. -/
theorem stepRunsTheCommandInProgress : Obligations.StepRunsTheCommandInProgress := by
  intro s i rest hbusy hdecode
  have hop : s.regs.op = opcode i := (List.cons.inj ((decodeBytes_ok_iff _ i rest).1 hdecode)).1
  have hblock : ∀ ts, blockTurn { s with script := ts } = exec i { s with script := ts } :=
    fun ts => blockTurn_running (s := { s with script := ts }) hbusy hop
  refine ⟨fun hs => ?nil, fun ts hs => ?exec, fun ts hs => ?awaitIdle, fun ts hs hdone => ?awaitDone⟩
  case nil => rw [step_nil hs]; exact hblock s.script
  case exec => rw [step_exec hs]; exact hblock ts
  case awaitIdle => rw [step_awaitIdle_busy hs hbusy]; exact hblock s.script
  case awaitDone => rw [step_awaitDone_notDone hs hdone]; exact hblock s.script

/-- Settles O7: an idle block's turn answers the state itself. -/
theorem idleTurnsChangeOnlyTheScript : Obligations.IdleTurnsChangeOnlyTheScript := by
  intro s ts
  refine ⟨fun hidle hs => ?nil, fun hidle hs => ?exec, fun hidle hs => step_awaitIdle_idle hs hidle,
    fun hdone hs => step_awaitDone_done hs hdone, fun hidle hdone hs => ?awaitDone⟩
  case nil => rw [step_nil hs, blockTurn_idle hidle]
  case exec => rw [step_exec hs]; exact blockTurn_idle hidle
  case awaitDone => rw [step_awaitDone_notDone hs hdone, blockTurn_idle hidle]

/-- Settles O17: a change is refused while `BUSY = 1`; between commands the check on the inputs decides. -/
theorem presentingInputs : Obligations.PresentingInputs := by
  intro s x ts hs
  rw [step_present hs]
  have hfree : s.regs.status.busy = false →
      presentInputs x { s with script := ts } =
        if x.wf s.par then .next { s with script := ts, inp := x } else .refused .inputsOutsideConstraints :=
    fun hidle => presentInputs_allowed (by simp [hidle])
  refine ⟨presentInputs_changed_busy (s := { s with script := ts }), fun hidle hwf => ?allowed,
    fun hidle hwf => ?refused⟩
  case allowed => rw [hfree hidle, if_pos hwf]
  case refused => rw [hfree hidle, hwf]; rfl

end Sys2Proof.Machine
end

section
/-! PROOFS. What one Exec step writes (spec/10_state.md R21): the registers each command leaves, as a function of the
parameters, the inputs and the registers, and field by field which commands write it. -/

namespace Sys2Proof.Machine

/-! ## The registers after one Exec step -/

/-- `LOGO_CHK` before completion (R115). -/
def logoChkRegs (s : State) : Regs :=
  { s.regs with
    rbuf := writeRbuf s.regs.rbuf (s.inp.image.field 0x0104 48)
    rlen := 48
    status := { s.regs.status with pass := logoMatches (s.inp.image.field 0x0104 48) s.inp.refLogo } }

/-- `TITLE` before completion (R90). -/
def titleRegs (s : State) : Regs :=
  markText s.par (s.inp.image.field 0x0134 16) (placeText (s.inp.image.field 0x0134 16) s.regs)

/-- `MANUF` before completion: `NA` in place of the mask on four zero bytes (R92, decision D14). -/
def manufRegs (s : State) : Regs :=
  let field := s.inp.image.field 0x013F 4
  let marked := markText s.par field (placeText field s.regs)
  { placeText field s.regs with
    rmask := if allZero field then s.regs.rmask else marked.rmask
    status :=
      { s.regs.status with
        na := if allZero field then true else s.regs.status.na
        degr := if allZero field then s.regs.status.degr else marked.status.degr } }

/-- A raw field command before completion (R80 to R82). -/
def rawRegs (a : Nat) (s : State) : Regs := { s.regs with res := zext16 (s.inp.image.byte a) }

/-- A lookup command with one table before completion (R100, R103 to R106). -/
def lookupRegs (a : Nat) (table : Inputs → Table Byte) (s : State) : Regs :=
  let hit := (table s.inp).get (s.inp.image.byte a)
  { rawRegs a s with label := Label.ofHit hit, status := { s.regs.status with unk := hit.isNone } }

/-- `PUBLISHER` before completion: the buffer and the mask are written on the code 0x33 only (R101). -/
def publisherRegs (s : State) : Regs :=
  let b0 := s.inp.image.byte 0x0144
  let b1 := s.inp.image.byte 0x0145
  let old := s.inp.image.byte 0x014B
  let mask := publisherMask s s.regs.rmask
  let hit := publisherHit s s.regs.rmask
  { s.regs with
    rbuf := if old = 0x33 then (s.regs.rbuf.set 0 b0).set 1 b1 else s.regs.rbuf
    rlen := if old = 0x33 then 2 else s.regs.rlen
    rmask := if old = 0x33 then mask else s.regs.rmask
    res := if old = 0x33 then bigEndian16 b0 b1 else zext16 old
    label := Label.ofHit hit
    status :=
      { s.regs.status with
        newPub := decide (old = 0x33)
        degr := if old = 0x33 then mask != 0 else s.regs.status.degr
        unk := hit.isNone } }

/-- `LOGO_RENDER` before completion (R120). -/
def logoRenderRegs (s : State) : Regs :=
  { s.regs with rbuf := writeRbuf s.regs.rbuf (renderLogo (s.inp.image.field 0x0104 48)), rlen := 48 }

/-- A step of `HDR_CHK` inside its range (R131). -/
def hdrAccumulated (s : State) : Regs :=
  { s.regs with acc8 := hdrUpdate s.regs.acc8 (s.inp.image.byte s.regs.addr), addr := s.regs.addr + 1 }

/-- A step of `HDR_CHK` past its range, before completion (R131). -/
def hdrJudged (s : State) : Regs :=
  { s.regs with
    res := zext16 s.regs.acc8
    tgt := zext16 (s.inp.image.byte 0x014D)
    status := { s.regs.status with pass := hdrVerdict s.regs.acc8 (s.inp.image.byte 0x014D) } }

/-- A step of `GLB_CHK` inside the image (R146). -/
def glbAccumulated (s : State) : Regs :=
  { s.regs with
    sum16 :=
      if excluded s.regs.addr then s.regs.sum16 else glbUpdate s.regs.sum16 (s.inp.image.byte s.regs.addr)
    addr := s.regs.addr + 1 }

/-- A step of `GLB_CHK` at the end of the image, before completion (R146). -/
def glbJudged (s : State) : Regs :=
  let target := bigEndian16 (s.inp.image.byte 0x014E) (s.inp.image.byte 0x014F)
  { s.regs with
    res := s.regs.sum16
    tgt := target
    status := { s.regs.status with pass := glbVerdict s.regs.sum16 target } }

/-- The registers after one Exec step, for the steps that answer a next state (`exec_eq_next`). -/
def execRegs (s : State) : Instr → Regs
  | .logoChk => complete (logoChkRegs s)
  | .title => complete (titleRegs s)
  | .manuf => complete (manufRegs s)
  | .cgb => complete (rawRegs 0x0143 s)
  | .sgb => complete (rawRegs 0x0146 s)
  | .publisher => complete (publisherRegs s)
  | .cart => complete (lookupRegs 0x0147 Inputs.tCart s)
  | .romsz => complete (lookupRegs 0x0148 Inputs.tRomSz s)
  | .ramsz => complete (lookupRegs 0x0149 Inputs.tRamSz s)
  | .dest => complete (lookupRegs 0x014A Inputs.tDest s)
  | .maskver => complete (rawRegs 0x014C s)
  | .hdrChk => if s.regs.addr ≤ 0x014C then hdrAccumulated s else complete (hdrJudged s)
  | .glbChk => if s.regs.addr < s.inp.image.len then glbAccumulated s else complete (glbJudged s)
  | .logoRender => complete (logoRenderRegs s)

/-! ## The Exec step leaves these registers -/

theorem Memory.slice_eq_some {m : Memory} {a n : Nat} {bs : List Byte} (h : m.slice a n = some bs) :
    bs = m.field a n := by
  induction n generalizing a bs with
  | zero => cases h; rfl
  | succ n ih =>
    simp only [Memory.slice, Memory.read] at h
    split at h
    case h_2 => cases h
    case h_1 b cs hb hcs =>
      split at hb
      · cases hb
        cases h
        simp [ih hcs, Memory.field, List.range_succ_eq_map, Nat.add_assoc, Nat.add_comm 1]
      · cases hb

theorem withByte_next {s t : State} {a : Nat} {k : Byte → Result} (h : withByte s a k = .next t) :
    k (s.inp.image.byte a) = .next t := by
  simp only [withByte, Memory.read] at h
  split at h
  · next hb =>
    split at hb
    · cases hb
      exact h
    · cases hb
  · cases h

theorem withSlice_next {s t : State} {a n : Nat} {k : List Byte → Result} (h : withSlice s a n k = .next t) :
    k (s.inp.image.field a n) = .next t := by
  simp only [withSlice] at h
  split at h
  · next hbs => exact Memory.slice_eq_some hbs ▸ h
  · cases h

theorem goOn_next {s t : State} {r : Regs} (h : goOn s r = .next t) : t = s.withRegs r :=
  (Host.Outcome.next.inj h).symm

theorem finish_next {s t : State} {r : Regs} (h : finish s r = .next t) : t = s.withRegs (complete r) :=
  goOn_next h

theorem newPublisher_eq {s : State} (hnew : s.inp.image.byte 0x014B = 0x33) :
    newPublisher s (s.inp.image.byte 0x0144) (s.inp.image.byte 0x0145) = publisherRegs s := by
  simp only [publisherRegs, newPublisher, publisherHit, publisherMask, if_pos hnew, decide_eq_true hnew, lookupLabel_eq,
    markText, placeText, maskText_pair, writeRbuf_pair, degraded]
  rfl

theorem oldPublisher_eq {s : State} (hold : s.inp.image.byte 0x014B ≠ 0x33) :
    oldPublisher s (s.inp.image.byte 0x014B) = publisherRegs s := by
  simp only [publisherRegs, oldPublisher, publisherHit, if_neg hold, decide_eq_false hold, lookupLabel_eq]

theorem lookupField_next {s t : State} {a : Nat} {table : Inputs → Table Byte}
    (h : lookupField a (table s.inp) s = .next t) : t = s.withRegs (complete (lookupRegs a table s)) := by
  have h := finish_next (withByte_next h)
  rwa [lookupLabel_eq] at h

theorem execManuf_next {s t : State} (h : execManuf s = .next t) : t = s.withRegs (complete (manufRegs s)) := by
  have h := withSlice_next h
  split at h
  · next hzero =>
    have hzero : allZero (s.inp.image.field 0x013F 4) = true := hzero
    simp only [manufRegs, hzero, if_true]
    exact finish_next h
  · next hnonzero =>
    have hnonzero : allZero (s.inp.image.field 0x013F 4) = false := Bool.eq_false_iff.2 hnonzero
    simp only [manufRegs, hnonzero, Bool.false_eq_true, if_false]
    exact finish_next h

theorem execPublisher_next {s t : State} (h : execPublisher s = .next t) :
    t = s.withRegs (complete (publisherRegs s)) := by
  have h := withByte_next h
  split at h
  · next hnew =>
    rw [← newPublisher_eq hnew]
    exact finish_next (withByte_next (withByte_next h))
  · next hold =>
    rw [← oldPublisher_eq hold]
    exact finish_next h

theorem execHdrChk_next {s t : State} (h : execHdrChk s = .next t) : t = s.withRegs (execRegs s .hdrChk) := by
  simp only [execHdrChk] at h
  rw [execRegs]
  split at h
  · next ha =>
    rw [if_pos (show s.regs.addr ≤ 0x014C from ha)]
    exact goOn_next (withByte_next h)
  · next ha =>
    rw [if_neg (show ¬s.regs.addr ≤ 0x014C from ha)]
    exact finish_next (withByte_next h)

theorem execGlbChk_next {s t : State} (h : execGlbChk s = .next t) : t = s.withRegs (execRegs s .glbChk) := by
  simp only [execGlbChk] at h
  rw [execRegs]
  split at h
  · next ha =>
    rw [if_pos ha, glbAccumulated]
    split at h
    · next hskip => rw [if_pos hskip]; exact goOn_next h
    · next htake => rw [if_neg htake]; exact goOn_next (withByte_next h)
  · next ha =>
    rw [if_neg ha]
    exact finish_next (withByte_next (withByte_next h))

/-- Everything an Exec step can do when it answers a next state, on an image of any length. -/
theorem exec_eq_next {i : Instr} {s t : State} (h : exec i s = .next t) : t = s.withRegs (execRegs s i) := by
  cases i with
  | logoChk | title | logoRender => exact finish_next (withSlice_next h)
  | cgb | sgb | maskver => exact finish_next (withByte_next h)
  | manuf => exact execManuf_next h
  | publisher => exact execPublisher_next h
  | cart => exact lookupField_next (table := Inputs.tCart) h
  | romsz => exact lookupField_next (table := Inputs.tRomSz) h
  | ramsz => exact lookupField_next (table := Inputs.tRamSz) h
  | dest => exact lookupField_next (table := Inputs.tDest) h
  | hdrChk => exact execHdrChk_next h
  | glbChk => exact execGlbChk_next h

/-- On a long enough image every Exec step answers a next state (R188). -/
theorem exec_of_long {i : Instr} {s : State} (hlong : 0x0150 ≤ s.inp.image.len) :
    exec i s = .next (s.withRegs (execRegs s i)) := by
  obtain ⟨t, ht⟩ : ∃ t, exec i s = .next t := by
    by_cases hhdr : i = .hdrChk
    · subst hhdr
      rcases Nat.lt_or_ge 0x014C s.regs.addr with ha | ha
      · exact ⟨_, exec_hdrChk_completing hlong ha⟩
      · exact ⟨_, exec_hdrChk_accumulating hlong ha⟩
    by_cases hglb : i = .glbChk
    · subst hglb
      rcases Nat.lt_or_ge s.regs.addr s.inp.image.len with ha | ha
      · exact ⟨_, exec_glbChk_reading ha⟩
      · exact ⟨_, exec_glbChk_completing hlong ha⟩
    obtain ⟨r, hr, -⟩ := exec_singleStep_completes hhdr hglb hlong
    exact ⟨_, hr⟩
  rw [ht, exec_eq_next ht]

/-! ## Which command writes which register -/

section
variable (s : State) (i : Instr)

/-- No Exec step writes `OP`, `FAULT` or `FCODE`. -/
theorem execRegs_frame :
    (execRegs s i).op = s.regs.op ∧ (execRegs s i).status.fault = s.regs.status.fault ∧
      (execRegs s i).status.fcode = s.regs.status.fcode := by
  cases i with
  | hdrChk | glbChk => rw [execRegs]; split <;> exact ⟨rfl, rfl, rfl⟩
  | _ => exact ⟨rfl, rfl, rfl⟩

/-- R21: an Exec step completes the command and leaves `ADDR`, or is an accumulating step of a checksum. -/
theorem execRegs_completes_or_accumulates :
    ((execRegs s i).status.busy = false ∧ (execRegs s i).status.done = true ∧ (execRegs s i).addr = s.regs.addr) ∨
    (i = .hdrChk ∧ s.regs.addr ≤ 0x014C ∧ execRegs s i = hdrAccumulated s) ∨
    (i = .glbChk ∧ s.regs.addr < s.inp.image.len ∧ execRegs s i = glbAccumulated s) := by
  cases i with
  | hdrChk =>
    rw [execRegs]
    split
    · next ha => exact .inr (.inl ⟨rfl, ha, rfl⟩)
    · exact .inl ⟨rfl, rfl, rfl⟩
  | glbChk =>
    rw [execRegs]
    split
    · next ha => exact .inr (.inr ⟨rfl, ha, rfl⟩)
    · exact .inl ⟨rfl, rfl, rfl⟩
  | _ => exact .inl ⟨rfl, rfl, rfl⟩

theorem execRegs_acc8 : (execRegs s i).acc8 = s.regs.acc8 ∨ opcode i = 0x0C := by
  cases i with
  | hdrChk => exact .inr rfl
  | glbChk => rw [execRegs]; split <;> exact .inl rfl
  | _ => exact .inl rfl

theorem execRegs_sum16 : (execRegs s i).sum16 = s.regs.sum16 ∨ opcode i = 0x0D := by
  cases i with
  | glbChk => exact .inr rfl
  | hdrChk => rw [execRegs]; split <;> exact .inl rfl
  | _ => exact .inl rfl

theorem execRegs_pass :
    (execRegs s i).status.pass = s.regs.status.pass ∨ opcode i ∈ ([0x01, 0x0C, 0x0D] : List Byte) := by
  cases i with
  | logoChk | hdrChk | glbChk => exact .inr (by decide)
  | _ => exact .inl rfl

theorem execRegs_unk :
    (execRegs s i).status.unk = s.regs.status.unk ∨
      opcode i ∈ ([0x06, 0x07, 0x08, 0x09, 0x0A] : List Byte) := by
  cases i with
  | publisher | cart | romsz | ramsz | dest => exact .inr (by decide)
  | hdrChk | glbChk => rw [execRegs]; split <;> exact .inl rfl
  | _ => exact .inl rfl

theorem execRegs_na : (execRegs s i).status.na = s.regs.status.na ∨ opcode i = 0x03 := by
  cases i with
  | manuf => exact .inr rfl
  | hdrChk | glbChk => rw [execRegs]; split <;> exact .inl rfl
  | _ => exact .inl rfl

theorem execRegs_newPub : (execRegs s i).status.newPub = s.regs.status.newPub ∨ opcode i = 0x06 := by
  cases i with
  | publisher => exact .inr rfl
  | hdrChk | glbChk => rw [execRegs]; split <;> exact .inl rfl
  | _ => exact .inl rfl

theorem execRegs_degr :
    (execRegs s i).status.degr = s.regs.status.degr ∨ opcode i ∈ ([0x02, 0x03, 0x06] : List Byte) := by
  cases i with
  | title | manuf | publisher => exact .inr (by decide)
  | hdrChk | glbChk => rw [execRegs]; split <;> exact .inl rfl
  | _ => exact .inl rfl

/-- Every Exec step keeps `DEGR` the sign of a mask bit (R94). -/
theorem execRegs_degr_iff_mask (h : s.regs.status.degr = true ↔ s.regs.rmask ≠ 0) :
    (execRegs s i).status.degr = true ↔ (execRegs s i).rmask ≠ 0 := by
  cases i with
  | title => exact bne_iff_ne
  | manuf =>
    simp only [execRegs, manufRegs, complete_status, complete_rmask]
    split
    · exact h
    · exact bne_iff_ne
  | publisher =>
    simp only [execRegs, publisherRegs, complete_status, complete_rmask]
    split
    · exact bne_iff_ne
    · exact h
  | hdrChk | glbChk => rw [execRegs]; split <;> exact h
  | _ => exact h

theorem Label.ofHit_of_isNone {hit : Option Text} (h : hit.isNone = true) : Label.ofHit hit = .unknown := by
  rw [Option.isNone_iff_eq_none.1 h]
  rfl

/-- Every Exec step keeps `UNK` the sign of `UNKNOWN_LABEL` (R100). -/
theorem execRegs_unk_unknown (h : s.regs.status.unk = true → s.regs.label = .unknown) :
    (execRegs s i).status.unk = true → (execRegs s i).label = .unknown := by
  cases i with
  | publisher | cart | romsz | ramsz | dest => exact Label.ofHit_of_isNone
  | hdrChk | glbChk => rw [execRegs]; split <;> exact h
  | _ => exact h

/-- No Exec step makes `RLEN` exceed the size of `RBUF`. -/
theorem execRegs_rlen_le (h : s.regs.rlen.toNat ≤ 48) : (execRegs s i).rlen.toNat ≤ 48 := by
  cases i with
  | logoChk | logoRender => exact le_rfl
  | title | manuf => simp [execRegs, titleRegs, manufRegs]
  | publisher =>
    simp only [execRegs, publisherRegs, complete_rlen]
    split
    · decide
    · exact h
  | hdrChk | glbChk => rw [execRegs]; split <;> exact h
  | _ => exact h

end

end Sys2Proof.Machine
end

section
/-! PROOFS. The invariant of every reachable state (spec/10_state.md section 3; spec/44_header_checksum.md R135;
spec/45_global_checksum.md R147): the states that meet it by their form (reset, a fault record, a command in progress),
what an issue and an Exec step keep, and the statements. -/

namespace Sys2Proof.Machine

/-! ## Parameters and inputs -/

theorem Params.nine_le_aw {p : Params} (h : p.wf = true) : 9 ≤ p.aw := by
  simp only [Params.wf, Bool.and_eq_true, decide_eq_true_eq] at h
  exact h.1

theorem Inputs.len_lt {x : Inputs} {p : Params} (h : x.wf p = true) : x.image.len < 2 ^ p.aw := by
  simp only [Inputs.wf, Bool.and_eq_true, decide_eq_true_eq] at h
  tauto

/-! ## States that meet the invariant by their form -/

section
variable {s : State} (hpar : s.par.wf = true) (hinp : s.inp.wf s.par = true)
include hpar hinp

/-- R200: the reset block. -/
theorem Inv.of_reset (hregs : s.regs = Regs.cleared 0) : Inv s where
  par_ok := hpar
  inp_ok := hinp
  status_ok := by
    rw [hregs]
    exact ⟨by decide, by decide, by decide, by decide, by decide⟩
  running := by simp [hregs, Status.zero]
  faulted := by simp [hregs, Status.zero]
  fresh _ _ := hregs
  addr_fits := by simp [hregs]
  rlen_le := by simp [hregs]

/-- R185: the record of a fault. -/
theorem Inv.of_faultRecord {code : FaultCode} {c : Byte} (hcode : code ≠ .none)
    (hregs : s.regs = raiseFault code (Regs.cleared c)) : Inv s where
  par_ok := hpar
  inp_ok := hinp
  status_ok := by
    rw [hregs]
    exact ⟨fun _ => by contradiction, fun _ => ⟨rfl, hcode⟩, fun _ => by contradiction, by simp [Status.zero],
      fun _ => rfl⟩
  running := by simp [hregs, Status.zero]
  faulted _ := by rw [hregs]; rfl
  fresh := by simp [hregs]
  addr_fits := by simp [hregs]
  rlen_le := by simp [hregs]

/-- R17: the index of a command in progress fits `ADDR`. -/
theorem Running.addr_lt {i : Instr} (hrun : Running s i) : s.regs.addr < 2 ^ s.par.aw := by
  have haw : 2 ^ 9 ≤ 2 ^ s.par.aw := Nat.pow_le_pow_right (by decide) (Params.nine_le_aw hpar)
  have hlen := Inputs.len_lt hinp
  have hprogress := hrun.progress
  cases i with
  | hdrChk =>
    obtain ⟨-, hle, -⟩ := hprogress
    omega
  | glbChk =>
    obtain ⟨hle, -⟩ := hprogress
    omega
  | _ =>
    obtain ⟨haddr, -⟩ := hprogress
    omega

/-- R201: a command in progress. -/
theorem Inv.of_running {i : Instr} (hrun : Running s i) : Inv s where
  par_ok := hpar
  inp_ok := hinp
  status_ok := by
    constructor <;> simp [hrun.cleared.status_eq, hrun.cleared.rmask_eq, Status.zero]
  running _ := ⟨i, hrun⟩
  faulted := by simp [hrun.cleared.status_eq, Status.zero]
  fresh := by simp [hrun.cleared.status_eq]
  addr_fits := hrun.addr_lt hpar hinp
  rlen_le := by simp [hrun.cleared.rlen_eq]

end

/-! ## An issue -/

/-- What an accepted issue leaves: the record of a fault, or a command at its start (R19). -/
theorem issue_cases {r : Regs} (hidle : r.status.busy = false) (c : Byte) (len : Nat) :
    (∃ code, code ≠ .none ∧ issue c len r = raiseFault code (Regs.cleared c)) ∨
    ∃ i, c = opcode i ∧ 0x0150 ≤ len ∧
      issue c len r =
        { Regs.cleared c with status := { Status.zero with busy := true }, addr := startAddr i } := by
  obtain ⟨i, hi, hop⟩ | he := decodeByte_cases c
  · obtain hshort | hlong := Nat.lt_or_ge len 0x0150
    · exact .inl ⟨_, by decide, issue_short hidle hi hshort⟩
    · exact .inr ⟨i, hop, hlong, issue_start hidle hi hlong⟩
  · exact .inl ⟨_, by decide, issue_illegal hidle he len⟩

theorem progress_start (i : Instr) (m : Memory) (r : Regs) (haddr : r.addr = startAddr i) (hacc : r.acc8 = 0)
    (hsum : r.sum16 = 0) : Progress i m r := by
  cases i with
  | hdrChk => simp [Progress, haddr, hacc, hsum, startAddr, Layout.hdrRange]
  | glbChk => simp [Progress, haddr, hacc, hsum, startAddr]
  | _ => exact ⟨haddr, hacc, hsum⟩

theorem Inv.issue {s : State} (h : Inv s) (c : Byte) :
    Inv { s with regs := Machine.issue c s.inp.image.len s.regs } := by
  cases hbusy : s.regs.status.busy with
  | true => rwa [issue_busy hbusy]
  | false =>
    obtain ⟨code, hcode, hissue⟩ | ⟨i, hop, hlong, hissue⟩ := issue_cases hbusy c s.inp.image.len
    · exact Inv.of_faultRecord h.par_ok h.inp_ok hcode hissue
    · rw [hissue]
      exact Inv.of_running h.par_ok h.inp_ok
        { op_eq := hop, long := hlong, cleared := rfl, progress := progress_start i _ _ rfl rfl rfl }

/-! ## An Exec step -/

/-- The running registers and the index may hold any value while the results are cleared (R22). -/
theorem ResultsCleared.withRunning {r : Regs} (h : ResultsCleared r) (acc : Byte) (sum : Half) (a : Nat) :
    ResultsCleared { r with acc8 := acc, sum16 := sum, addr := a } := by
  have hregs := congrArg (fun r : Regs => ({ r with acc8 := acc, sum16 := sum, addr := a } : Regs)) h
  exact hregs

section
variable {s : State}

theorem Running.hdrAccumulated (hrun : Running s .hdrChk) (ha : s.regs.addr ≤ 0x014C) :
    Running (s.withRegs (Machine.hdrAccumulated s)) .hdrChk := by
  obtain ⟨hge, -, hacc, hsum⟩ := hrun.progress
  refine ⟨hrun.op_eq, hrun.long, hrun.cleared.withRunning _ _ _, ?progress⟩
  case progress =>
    have hnext : s.regs.addr + 1 - 0x0134 = (s.regs.addr - 0x0134) + 1 := by omega
    have hbyte : 0x0134 + (s.regs.addr - 0x0134) = s.regs.addr := by omega
    refine ⟨Nat.le_succ_of_le hge, Nat.succ_le_succ ha, ?_, hsum⟩
    show hdrUpdate s.regs.acc8 (s.inp.image.byte s.regs.addr) = hdrAccAfter s.inp.image (s.regs.addr + 1 - 0x0134)
    rw [hnext, hdrAccAfter_succ, hbyte, hacc]

theorem Running.glbAccumulated (hrun : Running s .glbChk) (ha : s.regs.addr < s.inp.image.len) :
    Running (s.withRegs (Machine.glbAccumulated s)) .glbChk := by
  obtain ⟨-, hsum, hacc⟩ := hrun.progress
  refine ⟨hrun.op_eq, hrun.long, hrun.cleared.withRunning _ _ _, ?progress⟩
  case progress =>
    refine ⟨ha, ?_, hacc⟩
    show (if excluded s.regs.addr then s.regs.sum16 else glbUpdate s.regs.sum16 (s.inp.image.byte s.regs.addr)) =
      glbSumAfter s.inp.image (s.regs.addr + 1)
    rw [glbStep_eq_add_summand, hsum, glbSumAfter_succ]

/-- R14, R22: the completing step leaves a completed command, the accumulating one the command in progress. -/
theorem Inv.exec {i : Instr} (h : Inv s) (hrun : Running s i) : Inv (s.withRegs (execRegs s i)) := by
  obtain ⟨hbusy, hdone, haddr⟩ | ⟨rfl, ha, hregs⟩ | ⟨rfl, ha, hregs⟩ := execRegs_completes_or_accumulates s i
  · obtain ⟨-, hfault, hfcode⟩ := execRegs_frame s i
    have hst := hrun.cleared.status_eq
    exact Inv.of_done h.par_ok h.inp_ok hbusy hdone (hfault.trans (by rw [hst]; rfl)) (hfcode.trans (by rw [hst]; rfl))
      (execRegs_degr_iff_mask s i h.status_ok.degr_iff_mask) (execRegs_unk_unknown s i h.status_ok.unk_unknown)
      (haddr ▸ h.addr_fits) (execRegs_rlen_le s i h.rlen_le)
  · rw [hregs]
    exact Inv.of_running h.par_ok h.inp_ok (hrun.hdrAccumulated ha)
  · rw [hregs]
    exact Inv.of_running h.par_ok h.inp_ok (hrun.glbAccumulated ha)

/-- The command whose Exec step is next, in a state that meets the invariant. -/
theorem Inv.running_of_op {i : Instr} (h : Inv s) (hbusy : s.regs.status.busy = true) (hop : s.regs.op = opcode i) :
    Running s i := by
  obtain ⟨j, hrun⟩ := h.running hbusy
  rwa [← opcode_injective (hrun.op_eq.symm.trans hop)]

theorem Inv.blockTurn {t : State} (h : Inv s) (ht : Machine.blockTurn s = .next t) : Inv t := by
  obtain ⟨-, rfl⟩ | ⟨hbusy, i, hop, hexec⟩ := blockTurn_next ht
  · exact h
  · rw [exec_eq_next hexec]
    exact h.exec (h.running_of_op hbusy hop)

/-! ## The other turns -/

/-- Between commands the inputs may change (R205). -/
theorem Inv.withInputs (h : Inv s) (hidle : s.regs.status.busy = false) {x : Inputs} (hx : x.wf s.par = true) :
    Inv { s with inp := x } where
  par_ok := h.par_ok
  inp_ok := hx
  status_ok := h.status_ok
  running hbusy := by rw [hidle] at hbusy; contradiction
  faulted := h.faulted
  fresh := h.fresh
  addr_fits := h.addr_fits
  rlen_le := h.rlen_le

theorem Inv.present (h : Inv s) {x : Inputs} (hx : x.wf s.par = true) (hsame : s.regs.status.busy = true → x = s.inp) :
    Inv { s with inp := x } := by
  cases hbusy : s.regs.status.busy with
  | true => rwa [hsame hbusy]
  | false => exact h.withInputs hbusy hx

theorem Inv.withScript (h : Inv s) (ts : List Turn) : Inv { s with script := ts } := h.withTurns ts s.lastRead

end

/-! ## The statements -/

/-- Settles O44: no image is present, so the inputs are canonical; the registers are cleared. -/
theorem resetMeetsTheInvariant : Obligations.ResetMeetsTheInvariant :=
  Inv.of_reset (s := State.reset) (by decide) (by decide) reset_regs_eq

/-- Settles O45: the turn decides; each kind of turn keeps the invariant by its own lemma. -/
theorem everyStepKeepsTheInvariant : Obligations.EveryStepKeepsTheInvariant := by
  intro s t h hst
  obtain ⟨ts, -, hblock⟩ | ⟨ts, -, rfl⟩ | ⟨c, ts, -, rfl⟩ | ⟨r, ts, -, rfl⟩ | ⟨ts, -, rfl⟩ |
    ⟨x, ts, -, hx, hsame, rfl⟩ := step_next hst
  · exact (h.withScript ts).blockTurn hblock
  · exact h.withScript ts
  · exact (h.issue c).withScript ts
  · exact h.withTurns ts _
  · exact Inv.of_reset h.par_ok h.inp_ok rfl
  · exact (h.present hx hsame).withScript ts

/-- The block's turn always has a next state (R188). -/
theorem Inv.exists_blockTurn {s : State} (h : Inv s) : ∃ t, Machine.blockTurn s = .next t := by
  cases hbusy : s.regs.status.busy with
  | false => exact ⟨s, blockTurn_idle hbusy⟩
  | true =>
    obtain ⟨i, hrun⟩ := h.running hbusy
    exact ⟨_, (blockTurn_running hbusy hrun.op_eq).trans (exec_of_long hrun.long)⟩

/-- Settles O46: the block's turn has a next state, the host's turns but `present` always have, and what `present`
refuses are the two cases named. -/
theorem noStepFaults : Obligations.NoStepFaults := by
  intro s h
  have hblock := fun ts => (h.withScript ts).exists_blockTurn
  match hs : s.script with
  | [] => exact .inl (step_nil hs ▸ hblock s.script)
  | .issue c :: ts => exact .inl ⟨_, step_issue hs⟩
  | .read r :: ts => exact .inl ⟨_, step_read hs⟩
  | .reset :: ts => exact .inl ⟨_, step_reset hs⟩
  | .exec :: ts => exact .inl (step_exec hs ▸ hblock ts)
  | .awaitIdle :: ts =>
    cases hbusy : s.regs.status.busy with
    | true => exact .inl (step_awaitIdle_busy hs hbusy ▸ hblock s.script)
    | false => exact .inl ⟨_, step_awaitIdle_idle hs hbusy⟩
  | .awaitDone :: ts =>
    cases hdone : s.regs.status.done with
    | true => exact .inl ⟨_, step_awaitDone_done hs hdone⟩
    | false => exact .inl (step_awaitDone_notDone hs hdone ▸ hblock s.script)
  | .present x :: ts =>
    by_cases hchanged : s.regs.status.busy = true ∧ x ≠ s.inp
    · obtain ⟨hbusy, hx⟩ := hchanged
      exact .inr ⟨x, ts, rfl, .inl ⟨hbusy, hx,
        (step_present hs).trans (presentInputs_changed_busy (s := { s with script := ts }) hbusy hx)⟩⟩
    · have hstep := (step_present hs).trans
        (presentInputs_allowed (s := { s with script := ts }) fun hbusy => by_contra fun hx => hchanged ⟨hbusy, hx⟩)
      cases hwf : x.wf s.par with
      | true => exact .inl ⟨_, hstep.trans (if_pos hwf)⟩
      | false => exact .inr ⟨x, ts, rfl, .inr ⟨hwf, hstep.trans (if_neg (by simp [hwf]))⟩⟩

end Sys2Proof.Machine
end

section
/-! PROOFS. What a step writes (spec/10_state.md R12, R13; spec/20_memory.md R42): the registers after each kind of
step, and the statements on who changes the inputs, the accumulators and the fields of `STATUS`. -/

namespace Sys2Proof.Machine

/-! ## The registers after a step -/

/-- What a step can do to the registers: nothing, the Exec step of the command in progress, the clear of an issue that
is accepted, or the clear of a reset. -/
inductive RegsStep (s : State) (r : Regs) : Prop where
  | kept (h : r = s.regs)
  | exec (i : Instr) (hbusy : s.regs.status.busy = true) (hop : s.regs.op = opcode i) (h : r = execRegs s i)
  | issued (c : Byte) (ts : List Turn) (hs : s.script = .issue c :: ts) (hidle : s.regs.status.busy = false)
      (h : r = issue c s.inp.image.len s.regs)
  | reset (ts : List Turn) (hs : s.script = .reset :: ts) (h : r = Regs.cleared 0)

theorem blockTurn_regsStep {s t : State} {ts : List Turn} (h : blockTurn { s with script := ts } = .next t) :
    t.par = s.par ∧ t.inp = s.inp ∧ RegsStep s t.regs := by
  obtain ⟨-, rfl⟩ | ⟨hbusy, i, hop, hexec⟩ := blockTurn_next h
  · exact ⟨rfl, rfl, .kept rfl⟩
  · rw [exec_eq_next hexec]
    exact ⟨rfl, rfl, .exec i hbusy hop rfl⟩

theorem regsStep_of_step {s t : State} (hst : step s = .next t) : RegsStep s t.regs := by
  obtain ⟨ts, -, hblock⟩ | ⟨ts, -, rfl⟩ | ⟨c, ts, hs, rfl⟩ | ⟨r, ts, -, rfl⟩ | ⟨ts, hs, rfl⟩ |
    ⟨x, ts, -, -, -, rfl⟩ := step_next hst
  · exact (blockTurn_regsStep hblock).2.2
  · exact .kept rfl
  · cases hbusy : s.regs.status.busy with
    | true => exact .kept (issue_busy hbusy c _)
    | false => exact .issued c ts hs hbusy rfl
  · exact .kept rfl
  · exact .reset ts hs rfl
  · exact .kept rfl

/-! ## The inputs and the accumulators -/

/-- Settles O15: of all turns only `present` touches the inputs, and it touches nothing else. -/
theorem blockWritesOnlyItsRegisters : Obligations.BlockWritesOnlyItsRegisters := by
  intro s t hst
  obtain ⟨ts, hs, hblock⟩ | ⟨ts, hs, rfl⟩ | ⟨c, ts, hs, rfl⟩ | ⟨r, ts, hs, rfl⟩ | ⟨ts, hs, rfl⟩ |
    ⟨x, ts, hs, -, -, rfl⟩ := step_next hst
  · obtain ⟨hpar, hinp, -⟩ := blockTurn_regsStep hblock
    exact ⟨hpar, fun _ => ⟨hinp, fun a => by rw [hinp]⟩, fun x us hx => by simp [hx] at hs⟩
  · exact ⟨rfl, fun _ => ⟨rfl, fun _ => rfl⟩, fun x us hx => by simp [hx] at hs⟩
  · exact ⟨rfl, fun _ => ⟨rfl, fun _ => rfl⟩, fun x us hx => by simp [hx] at hs⟩
  · exact ⟨rfl, fun _ => ⟨rfl, fun _ => rfl⟩, fun x us hx => by simp [hx] at hs⟩
  · exact ⟨rfl, fun _ => ⟨rfl, fun _ => rfl⟩, fun x us hx => by simp [hx] at hs⟩
  · refine ⟨rfl, fun hno => absurd hs (hno x ts), fun y us hy => ?_⟩
    obtain ⟨rfl, rfl⟩ : x = y ∧ ts = us := by simpa [hs] using hy
    exact ⟨rfl, rfl, rfl⟩

/-- An accepted issue clears both accumulators (R12, R20). -/
theorem issue_accumulators {r : Regs} (hidle : r.status.busy = false) (c : Byte) (len : Nat) :
    (issue c len r).acc8 = 0 ∧ (issue c len r).sum16 = 0 := by
  obtain ⟨code, -, hissue⟩ | ⟨i, -, -, hissue⟩ := issue_cases hidle c len
  · rw [hissue]
    exact ⟨rfl, rfl⟩
  · rw [hissue]
    exact ⟨rfl, rfl⟩

/-- Settles O16: an Exec step of another command leaves the accumulator; an accepted issue and a reset clear it. -/
theorem accumulatorsHaveOneWriterEach : Obligations.AccumulatorsHaveOneWriterEach := by
  intro s t hst
  cases regsStep_of_step hst with
  | kept h => simp [h]
  | exec i hbusy hop h =>
    rw [h, hop]
    exact ⟨fun hne => .inl ⟨hbusy, (execRegs_acc8 s i).resolve_left hne⟩,
      fun hne => .inl ⟨hbusy, (execRegs_sum16 s i).resolve_left hne⟩⟩
  | issued c ts hs hidle h =>
    obtain ⟨hacc, hsum⟩ := issue_accumulators hidle c s.inp.image.len
    rw [h]
    exact ⟨fun _ => .inr ⟨hacc, .inl ⟨c, ts, hs, hidle⟩⟩, fun _ => .inr ⟨hsum, .inl ⟨c, ts, hs, hidle⟩⟩⟩
  | reset ts hs h =>
    rw [h]
    exact ⟨fun _ => .inr ⟨rfl, .inr ⟨ts, hs⟩⟩, fun _ => .inr ⟨rfl, .inr ⟨ts, hs⟩⟩⟩

/-! ## The fields of `STATUS` -/

/-- `BUSY` and `DONE` change together, at completion (R21). -/
theorem execRegs_busy_done (s : State) (i : Instr) :
    ((execRegs s i).status.busy = false ∧ (execRegs s i).status.done = true) ∨
    ((execRegs s i).status.busy = s.regs.status.busy ∧ (execRegs s i).status.done = s.regs.status.done) := by
  obtain ⟨hbusy, hdone, -⟩ | ⟨-, -, hregs⟩ | ⟨-, -, hregs⟩ := execRegs_completes_or_accumulates s i
  · exact .inl ⟨hbusy, hdone⟩
  · rw [hregs]
    exact .inr ⟨rfl, rfl⟩
  · rw [hregs]
    exact .inr ⟨rfl, rfl⟩

/-- A flag that a step raised did not keep its value. -/
theorem ne_of_raised {new old : Bool} (hnew : new = true) (hold : old = false) : new ≠ old := by
  simp [hnew, hold]

/-- What an accepted issue leaves in `STATUS`: no verdict and no condition, and `DONE` with `FAULT` alone (R19, R20). -/
theorem issue_status {r : Regs} (hidle : r.status.busy = false) (c : Byte) (len : Nat) :
    let st := (issue c len r).status
    st.pass = false ∧ st.unk = false ∧ st.na = false ∧ st.newPub = false ∧ st.degr = false ∧ st.done = st.fault := by
  obtain ⟨code, -, hissue⟩ | ⟨i, -, -, hissue⟩ := issue_cases hidle c len
  · rw [hissue]
    exact ⟨rfl, rfl, rfl, rfl, rfl, rfl⟩
  · rw [hissue]
    exact ⟨rfl, rfl, rfl, rfl, rfl, rfl⟩

/-- Settles O14: for an Exec step, the field lemmas of `execRegs` name the writing commands; an accepted issue and a
reset leave `STATUS` as `issue_status` and the clear say. -/
theorem flagsAreRaisedOnlyByTheirCommands : Obligations.FlagsAreRaisedOnlyByTheirCommands := by
  intro s t hinv hst
  cases regsStep_of_step hst with
  | kept h => simp +contextual [h]
  | exec i hbusy hop h =>
    have hnotDone := hinv.status_ok.busy_not_done hbusy
    have hnoFault : s.regs.status.fault = false := by rw [(hinv.resultsCleared hbusy).status_eq]; rfl
    obtain ⟨-, hfault, hfcode⟩ := execRegs_frame s i
    rw [h, hop, hfault, hfcode, hbusy, hnotDone]
    refine ⟨fun hnew hold => ⟨rfl, (execRegs_pass s i).resolve_left (ne_of_raised hnew hold)⟩,
      fun hnew hold => ⟨rfl, (execRegs_unk s i).resolve_left (ne_of_raised hnew hold)⟩,
      fun hnew hold => ⟨rfl, (execRegs_na s i).resolve_left (ne_of_raised hnew hold)⟩,
      fun hnew hold => ⟨rfl, (execRegs_newPub s i).resolve_left (ne_of_raised hnew hold)⟩,
      fun hnew hold => ⟨rfl, (execRegs_degr s i).resolve_left (ne_of_raised hnew hold)⟩,
      by simp [hnoFault], by simp, by simp, fun hfall _ => .inl ?falls, fun hrise _ => .inl ⟨rfl, ?rises, hnoFault⟩,
      by simp⟩
    case falls =>
      obtain ⟨-, hdone⟩ | ⟨hsame, -⟩ := execRegs_busy_done s i
      · exact hdone
      · exact absurd (hbusy.symm.trans (hsame.symm.trans hfall)) (by decide)
    case rises =>
      obtain ⟨hfall, -⟩ | ⟨-, hsame⟩ := execRegs_busy_done s i
      · exact hfall
      · exact absurd (hnotDone.symm.trans (hsame.symm.trans hrise)) (by decide)
  | issued c ts hs hidle h =>
    obtain ⟨hpass, hunk, hna, hnewPub, hdegr, hdone⟩ := issue_status hidle c s.inp.image.len
    rw [h]
    simp only [hpass, hunk, hna, hnewPub, hdegr, hdone, hidle]
    have hscript : ∃ c ts, s.script = .issue c :: ts := ⟨c, ts, hs⟩
    simp +contextual [hscript]
  | reset ts hs h =>
    have hscript : ∃ ts, s.script = .reset :: ts := ⟨ts, hs⟩
    have hidle_of_done : s.regs.status.done = true → s.regs.status.busy = false := fun hdone => by
      by_contra hbusy
      exact absurd (hdone.symm.trans (hinv.status_ok.busy_not_done (Bool.eq_true_of_not_eq_false hbusy))) (by decide)
    have hidle_of_code : Status.zero.fcode ≠ s.regs.status.fcode → s.regs.status.busy = false := fun hcode => by
      by_contra hbusy
      have hst := (hinv.resultsCleared (Bool.eq_true_of_not_eq_false hbusy)).status_eq
      exact hcode (by rw [hst])
    rw [h, Regs.cleared_status]
    exact ⟨nofun, nofun, nofun, nofun, nofun, nofun, nofun, fun _ hdone => ⟨hidle_of_done hdone, .inr hscript⟩,
      fun _ _ => .inr hscript, nofun, fun hcode => ⟨hidle_of_code hcode, .inr ⟨rfl, hscript⟩⟩⟩

end Sys2Proof.Machine
end

section
/-! PROOFS. The laws of the two checksums (spec/44_header_checksum.md and spec/45_global_checksum.md, sections 2 and 3):
the single Exec steps, the running values as sums, how a changed or an appended byte changes them, and the
statements. -/

namespace Sys2Proof.Machine

/-! ## One Exec step -/

theorem glbUpdate_eq_ofNat (sum : Half) (b : Byte) : glbUpdate sum b = BitVec.ofNat 16 (sum.toNat + b.toNat) := by
  apply BitVec.eq_of_toNat_eq
  rw [glbUpdate_toNat, BitVec.toNat_ofNat]

/-- Settles O25: the two meanings of a `HDR_CHK` step, with the update as an integer expression reduced. -/
theorem headerChecksumStep : Obligations.HeaderChecksumStep := by
  refine fun s hlong => ⟨fun ha => ?accumulating, fun ha => ?completing⟩
  case accumulating =>
    rw [exec_hdrChk_accumulating hlong ha, hdrUpdate_eq_ofInt]
    rfl
  case completing =>
    rw [exec_hdrChk_completing hlong ha, zext16_eq, zext16_eq]
    rfl

/-- Settles O26: the two meanings of a `GLB_CHK` step, with the sum and the target as integers reduced. -/
theorem globalChecksumStep : Obligations.GlobalChecksumStep := by
  refine fun s hlong => ⟨fun ha => ?reading, fun ha => ?completing⟩
  case reading =>
    rw [exec_glbChk_reading ha]
    simp only [excluded_iff, glbUpdate_eq_ofNat]
    rfl
  case completing =>
    rw [exec_glbChk_completing hlong ha]
    dsimp only
    rw [glbVerdict_bigEndian16, bigEndian16_eq]
    rfl

/-! ## The running values -/

/-- Settles O27: the running accumulator, its sum written out. -/
theorem headerChecksumAfterSteps : Obligations.HeaderChecksumAfterSteps := by
  intro s k hidle hlong hk
  rw [← byteSum_bytes]
  exact runs_hdrRunning hidle hlong hk

/-- Settles O29: the running sum, its summands written out. -/
theorem globalChecksumAfterSteps : Obligations.GlobalChecksumAfterSteps := by
  intro s k hidle hlong hk
  have hrun := runs_glbRunning hidle hlong hk
  rw [glbSumAfter_eq_ofNat_sum] at hrun
  exact hrun

/-! ## A sum with one summand changed -/

theorem sum_range_eq_of_eq_except {f g : Nat → Nat} {a n : Nat} (hrest : ∀ j, j ≠ a → g j = f j) (ha : a < n) :
    ((List.range n).map g).sum + f a = ((List.range n).map f).sum + g a := by
  induction n with
  | zero => omega
  | succ n ih =>
    simp only [List.range_succ, List.map_append, List.sum_append, List.map_singleton, List.sum_singleton]
    obtain hlt | rfl := Nat.lt_or_eq_of_le (Nat.le_of_lt_succ ha)
    · have := ih hlt
      have := hrest n (by omega)
      omega
    · rw [List.map_congr_left fun j hj => hrest j (List.mem_range.1 hj).ne]
      omega

/-! ## The header accumulator -/

/-- The accumulator a completed `HDR_CHK` leaves. -/
theorem acc8_of_runs_hdrChk {s : State} {r : Regs} (hrun : Runs s 0x0C 26 r) (hidle : s.regs.status.busy = false)
    (hlong : 0x0150 ≤ s.inp.image.len) : r.acc8 = hdrAccAfter s.inp.image 25 := by
  rw [hrun.unique (runs_hdrCompleted hidle hlong), hdrCompleted_acc8]

/-- R136: the accumulator depends on the bytes through their sum modulo 256 only. -/
theorem hdrAccAfter_eq_iff (m m' : Memory) (k : Nat) :
    byteSum (m.bytes 0x0134 k) % 256 = byteSum (m'.bytes 0x0134 k) % 256 ↔ hdrAccAfter m k = hdrAccAfter m' k := by
  rw [← BitVec.toNat_inj, hdrAccAfter, hdrAccAfter, BitVec.toNat_ofInt, BitVec.toNat_ofInt]
  omega

theorem byteSum_perm {bs cs : List Byte} (h : bs.Perm cs) : byteSum bs = byteSum cs := (h.map _).sum_eq

/-- R137: a byte changed inside the range. -/
theorem hdrAccAfter_write_of_inside {m : Memory} (hwf : m.wf = true) {a k : Nat} (v : Byte) (ha : a < m.len)
    (hin : 0x0134 ≤ a ∧ a < 0x0134 + k) : hdrAccAfter (m.write a v) k - hdrAccAfter m k = m.byte a - v := by
  obtain ⟨j, rfl⟩ := Nat.exists_eq_add_of_le hin.1
  have hsum := sum_range_eq_of_eq_except
    (f := fun i => (m.byte (0x0134 + i)).toNat) (g := fun i => ((m.write (0x0134 + j) v).byte (0x0134 + i)).toNat)
    (a := j) (n := k) (fun i hi => by rw [Memory.byte_write_other hwf v (by omega)]) (by omega)
  rw [Memory.byte_write_same hwf ha, ← byteSum_bytes, ← byteSum_bytes] at hsum
  apply BitVec.eq_of_toNat_eq
  have := v.isLt
  have := (m.byte (0x0134 + j)).isLt
  simp only [hdrAccAfter, BitVec.toNat_sub, BitVec.toNat_ofInt]
  omega

/-- Settles O32: both accumulators are functions of the sums, and a permutation keeps the sum. -/
theorem headerChecksumIgnoresByteOrder : Obligations.HeaderChecksumIgnoresByteOrder := by
  intro s1 s2 r1 r2 hidle1 hidle2 hlong1 hlong2 hrun1 hrun2
  rw [acc8_of_runs_hdrChk hrun1 hidle1 hlong1, acc8_of_runs_hdrChk hrun2 hidle2 hlong2]
  have hiff := hdrAccAfter_eq_iff s1.inp.image s2.inp.image 25
  exact ⟨hiff, fun hperm => hiff.1 (by rw [byteSum_perm hperm])⟩

/-- Settles O33: the accumulator of the changed image, inside and outside the range. -/
theorem headerChecksumSensitivity : Obligations.HeaderChecksumSensitivity := by
  intro s a v r1 r2 hidle hlong hwf ha hrun1 hrun2
  rw [acc8_of_runs_hdrChk hrun1 hidle hlong, acc8_of_runs_hdrChk hrun2 hidle (by simpa using hlong)]
  exact ⟨fun hin => hdrAccAfter_write_of_inside hwf v ha (by omega),
    fun hout => hdrAccAfter_write_of_outside hwf v (by omega)⟩

/-! ## The global sum -/

theorem glbSummand_write_other {m : Memory} (hwf : m.wf = true) {a x : Nat} (v : Byte) (hx : x ≠ a) :
    glbSummand (m.write a v) x = glbSummand m x := by
  rw [glbSummand, glbSummand, Memory.byte_write_other hwf v hx]

theorem glbSummand_of_included {m : Memory} {a : Nat} (ha : a ≠ 0x014E ∧ a ≠ 0x014F) :
    glbSummand m a = (m.byte a).toNat :=
  if_neg (by omega)

theorem glbSummand_of_excluded {m : Memory} {a : Nat} (ha : a = 0x014E ∨ a = 0x014F) : glbSummand m a = 0 :=
  if_pos ha

theorem glbSumAfter_congr {m m' : Memory} {k : Nat} (h : ∀ a, a < k → glbSummand m' a = glbSummand m a) :
    glbSumAfter m' k = glbSumAfter m k := by
  rw [glbSumAfter_eq_ofNat_sum, glbSumAfter_eq_ofNat_sum,
    List.map_congr_left fun a ha => h a (List.mem_range.1 ha)]

/-- R149: the two target bytes are outside the sum. -/
theorem glbSumAfter_write_of_excluded {m : Memory} (hwf : m.wf = true) {a : Nat} (v : Byte)
    (ha : a = 0x014E ∨ a = 0x014F) (k : Nat) : glbSumAfter (m.write a v) k = glbSumAfter m k := by
  refine glbSumAfter_congr fun x _ => ?_
  by_cases hx : x = a
  · rw [hx, glbSummand_of_excluded ha, glbSummand_of_excluded ha]
  · exact glbSummand_write_other hwf v hx

/-- R151: a byte changed elsewhere. -/
theorem glbSumAfter_write_of_included {m : Memory} (hwf : m.wf = true) {a k : Nat} (v : Byte) (hk : a < k)
    (hlen : a < m.len) (ha : a ≠ 0x014E ∧ a ≠ 0x014F) :
    glbSumAfter (m.write a v) k - glbSumAfter m k = BitVec.ofInt 16 ((v.toNat : Int) - (m.byte a).toNat) := by
  have hsum := sum_range_eq_of_eq_except (f := glbSummand m) (g := glbSummand (m.write a v)) (a := a) (n := k)
    (fun x hx => glbSummand_write_other hwf v hx) hk
  rw [glbSummand_of_included ha, glbSummand_of_included ha, Memory.byte_write_same hwf hlen] at hsum
  apply BitVec.eq_of_toNat_eq
  have := v.isLt
  have := (m.byte a).isLt
  simp only [glbSumAfter_eq_ofNat_sum, BitVec.toNat_sub, BitVec.toNat_ofNat, BitVec.toNat_ofInt]
  omega

theorem glbSumAfter_write_ne {m : Memory} (hwf : m.wf = true) {a k : Nat} {v : Byte} (hk : a < k)
    (hlen : a < m.len) (ha : a ≠ 0x014E ∧ a ≠ 0x014F) (hv : v ≠ m.byte a) :
    glbSumAfter (m.write a v) k ≠ glbSumAfter m k := by
  intro heq
  have hdiff := glbSumAfter_write_of_included hwf v hk hlen ha
  rw [heq, BitVec.sub_self, BitVec.toNat_eq, BitVec.toNat_ofInt] at hdiff
  have := v.isLt
  have := (m.byte a).isLt
  refine hv (BitVec.eq_of_toNat_eq ?_)
  simp only [BitVec.toNat_ofNat] at hdiff
  omega

/-- R152: the image lengthened by a byte. -/
theorem glbSumAfter_append {m : Memory} (hwf : m.wf = true) (hlong : 0x0150 ≤ m.len) (v : Byte) :
    (glbSumAfter ((m.padTo (m.len + 1)).write m.len v) (m.len + 1)).toNat =
      ((glbSumAfter m m.len).toNat + v.toNat) % 65536 := by
  have hpad := Memory.padTo_wf hwf (m.len + 1)
  have hold : glbSumAfter ((m.padTo (m.len + 1)).write m.len v) m.len = glbSumAfter m m.len :=
    glbSumAfter_congr fun a ha => glbSummand_write_other hpad v ha.ne
  have hnew : glbSummand ((m.padTo (m.len + 1)).write m.len v) m.len = v.toNat := by
    rw [glbSummand_of_included (by omega), Memory.byte_write_same hpad (by simp)]
  rw [glbSumAfter_succ, hold, hnew, BitVec.toNat_ofNat]

theorem glbCompleted_of_runs {s : State} {r : Regs} (hrun : Runs s 0x0D (s.inp.image.len + 1) r)
    (hidle : s.regs.status.busy = false) (hlong : 0x0150 ≤ s.inp.image.len) :
    r = glbCompleted s.inp.image.len (glbSumAfter s.inp.image s.inp.image.len) (glbTarget s.inp.image) :=
  hrun.unique (runs_glbCompleted hidle hlong)

/-- The registers after `GLB_CHK` on the image with one byte changed. -/
theorem glbCompleted_of_runs_write {s : State} {r : Regs} {a : Nat} {v : Byte}
    (hrun : Runs { s with inp := { s.inp with image := s.inp.image.write a v } } 0x0D (s.inp.image.len + 1) r)
    (hidle : s.regs.status.busy = false) (hlong : 0x0150 ≤ s.inp.image.len) :
    r = glbCompleted s.inp.image.len (glbSumAfter (s.inp.image.write a v) s.inp.image.len)
      (glbTarget (s.inp.image.write a v)) := by
  have hcompleted := runs_glbCompleted (s := { s with inp := { s.inp with image := s.inp.image.write a v } }) hidle
    (by simpa using hlong)
  simp only [Memory.write_len] at hcompleted
  exact hrun.unique hcompleted

/-- Settles O35: the sums before and after, by whether the address is one of the two targets. -/
theorem globalChecksumSensitivity : Obligations.GlobalChecksumSensitivity := by
  intro s a v r1 r2 hidle hlong hwf ha hrun1 hrun2
  rw [glbCompleted_of_runs hrun1 hidle hlong, glbCompleted_of_runs_write hrun2 hidle hlong]
  refine ⟨fun hin => ⟨glbSumAfter_write_of_included hwf v ha ha hin, fun hv => ?changed⟩, fun hout => ?target⟩
  case changed =>
    have hne := glbSumAfter_write_ne hwf ha ha hin hv
    exact ⟨hne, hne⟩
  case target =>
    have heq := glbSumAfter_write_of_excluded hwf v hout s.inp.image.len
    exact ⟨heq, heq⟩

/-- R154: the big-endian bytes of a sum, written at the two targets, are that sum. -/
theorem glbTarget_write_halves {m : Memory} (hwf : m.wf = true) (hlong : 0x0150 ≤ m.len) (sum : Half) :
    glbTarget ((m.write 0x014E (sum.extractLsb' 8 8)).write 0x014F (sum.extractLsb' 0 8)) = sum.toNat := by
  have hhigh := Memory.write_wf hwf 0x014E (sum.extractLsb' 8 8)
  rw [glbTarget, Memory.byte_write_same hhigh (by rw [Memory.write_len]; omega),
    Memory.byte_write_other hhigh _ (by decide), Memory.byte_write_same hwf (by omega)]
  have := sum.isLt
  simp only [BitVec.extractLsb'_toNat, Nat.shiftRight_eq_div_pow]
  omega

/-- Settles O36: the two writes leave the sum as it was and make it the target. -/
theorem globalChecksumRoundTrip : Obligations.GlobalChecksumRoundTrip := by
  intro s r1 hidle hlong hwf hrun image
  have hr1 := glbCompleted_of_runs hrun hidle hlong
  have hsum : glbSumAfter image image.len = r1.sum16 := by
    have hlen : image.len = s.inp.image.len := by simp [image]
    rw [hlen, glbSumAfter_write_of_excluded (Memory.write_wf hwf _ _) _ (.inr rfl),
      glbSumAfter_write_of_excluded hwf _ (.inl rfl), hr1]
    rfl
  have hrun2 := runs_glbCompleted (s := { s with inp := { s.inp with image := image } }) hidle
    (by simpa [image] using hlong)
  refine ⟨_, hrun2, decide_eq_true ?target, hsum⟩
  case target =>
    show (glbSumAfter image image.len).toNat = glbTarget image
    rw [hsum, glbTarget_write_halves hwf hlong]

/-- Settles O37: the last address of the longer image adds the byte. -/
theorem appendedByteChangesTheSum : Obligations.AppendedByteChangesTheSum := by
  intro s v r1 r2 hidle hlong hwf longer hrun1 hrun2
  have hlen : longer.len = s.inp.image.len + 1 := by simp [longer]
  have hlongRun := runs_glbCompleted (s := { s with inp := { s.inp with image := longer } }) hidle
    (show 0x0150 ≤ longer.len by omega)
  have hsum : r2.sum16.toNat = (r1.sum16.toNat + v.toNat) % 65536 := by
    dsimp only at hlongRun
    rw [hlen] at hlongRun
    rw [hrun2.unique hlongRun, glbCompleted_of_runs hrun1 hidle hlong]
    exact glbSumAfter_append hwf hlong v
  refine ⟨hsum, fun hv heq => hv (BitVec.eq_of_toNat_eq ?zero)⟩
  case zero =>
    have := v.isLt
    have := r1.sum16.isLt
    rw [heq] at hsum
    show v.toNat = 0
    omega

/-! ## A changed logo byte -/

/-- The registers after a command of one Exec step. -/
theorem runs_execRegs {s : State} {i : Instr} (hidle : s.regs.status.busy = false) (hlong : 0x0150 ≤ s.inp.image.len)
    (hstart : startAddr i = 0) : Runs s (opcode i) 1 (execRegs (s.justIssued (opcode i)) i) :=
  runs_one_of_exec_justIssued hidle hlong hstart (exec_of_long hlong)

theorem pass_of_runs_logoChk {s : State} {r : Regs} (hrun : Runs s 0x01 1 r) (hidle : s.regs.status.busy = false)
    (hlong : 0x0150 ≤ s.inp.image.len) :
    r.status.pass = logoMatches (s.inp.image.field 0x0104 48) s.inp.refLogo := by
  rw [hrun.unique (runs_execRegs (i := .logoChk) hidle hlong rfl)]
  rfl

/-- Settles O38: the changed address is inside the logo, so it is outside the header range and is no target byte. -/
theorem logoFlipConsequences : Obligations.LogoFlipConsequences := by
  intro s a v l1 h1 g1 l2 h2 g2 hidle hlong hwf hge hle hv s2 hl1 hh1 hg1 hl2 hh2 hg2
  have ha : a < s.inp.image.len := by omega
  have hlong2 : 0x0150 ≤ s2.inp.image.len := by simpa [s2] using hlong
  have hsum := glbSumAfter_write_ne hwf ha ha (by omega) hv
  have hr1 := glbCompleted_of_runs hg1 hidle hlong
  have hr2 := glbCompleted_of_runs_write hg2 hidle hlong
  refine ⟨fun hmatch => ?logo, ?header, ?sum, fun hpass => ?global⟩
  case logo =>
    rw [pass_of_runs_logoChk hl2 hidle hlong2]
    rw [pass_of_runs_logoChk hl1 hidle hlong] at hmatch
    exact logoMatches_write_of_inside hwf ha (by omega) hv hmatch
  case header =>
    rw [hh1.unique (runs_hdrCompleted hidle hlong), hh2.unique (runs_hdrCompleted hidle hlong2),
      hdrAccAfter_write_of_outside hwf v (by omega), Memory.byte_write_other hwf v (by omega)]
  case sum =>
    rw [hr1, hr2]
    exact hsum
  case global =>
    have htarget : glbTarget (s.inp.image.write a v) = glbTarget s.inp.image := by
      rw [glbTarget, glbTarget, Memory.byte_write_other hwf v (by omega), Memory.byte_write_other hwf v (by omega)]
    rw [hr1] at hpass
    rw [hr2, htarget]
    have hold : (glbSumAfter s.inp.image s.inp.image.len).toNat = glbTarget s.inp.image := of_decide_eq_true hpass
    exact decide_eq_false fun hnew => hsum (BitVec.eq_of_toNat_eq (hnew.trans hold.symm))

end Sys2Proof.Machine
end

section
/-! PROOFS. The laws of the logo rendering, the text fields and the lookups (spec/43_logo.md R123;
spec/41_text_fields.md R93, R96; spec/42_lookup_fields.md R100, R107): what a rendering tells of the image, and what the
registers of a completed command tell of each other. -/

namespace Sys2Proof.Machine

/-! ## The rendering -/

/-- Every bit of every logo byte stands in some cell: the byte at an even offset in the two upper rows of its block,
that at an odd offset in the two lower ones (R122). -/
theorem byte_getLsbD_of_render {s t : State} (hlong : 0x0150 ≤ s.inp.image.len) (hexec : exec .logoRender s = .next t)
    {i q : Nat} (hi : i < 48) (hq : q < 8) :
    (s.inp.image.byte (0x0104 + i)).getLsbD q =
      t.regs.cell (4 * (i / 24) + (2 * (i % 2) + (1 - q / 4))) (4 * (i % 24 / 2) + (3 - q % 4)) := by
  have hcell := renderedCells s t hlong hexec ⟨i / 24, by omega⟩ ⟨2 * (i % 2) + (1 - q / 4), by omega⟩
    ⟨i % 24 / 2, by omega⟩ ⟨3 - q % 4, by omega⟩
  have haddr : 0x0104 + 24 * (i / 24) + 2 * (i % 24 / 2) + (2 * (i % 2) + (1 - q / 4)) / 2 = 0x0104 + i := by omega
  simp only [haddr] at hcell
  rw [hcell]
  split
  · rw [show 7 - (3 - q % 4) = q by omega]
  · rw [show 3 - (3 - q % 4) = q by omega]

/-- Settles O41: the bytes determine the rendering, and its cells give back every bit of them. -/
theorem renderingIsInjective : Obligations.RenderingIsInjective := by
  intro s1 s2 t1 t2 hlong1 hlong2 hexec1 hexec2
  constructor
  · intro hbuf
    refine List.map_congr_left fun i hi => BitVec.eq_of_getLsbD_eq fun q hq => ?_
    have hi := List.mem_range.1 hi
    rw [byte_getLsbD_of_render hlong1 hexec1 hi hq, byte_getLsbD_of_render hlong2 hexec2 hi hq, Regs.cell, Regs.cell,
      hbuf]
  · intro hbytes
    have hfield : s1.inp.image.field 0x0104 48 = s2.inp.image.field 0x0104 48 := hbytes
    rw [exec_logoRender_next hlong1] at hexec1
    rw [exec_logoRender_next hlong2] at hexec2
    rw [← Host.Outcome.next.inj hexec1, ← Host.Outcome.next.inj hexec2]
    show renderedBuf s1.inp.image = renderedBuf s2.inp.image
    rw [renderedBuf, renderedBuf, hfield]

/-! ## The text fields -/

theorem fieldBuf_getElem_of_lt (m : Memory) (a : Nat) {n : Nat} (old : Vector Byte 48) {i : Fin 48} (hi : i.val < n) :
    (fieldBuf m a n old)[i] = m.byte (a + i) := by
  simp [fieldBuf, hi]

/-- R96: from a cleared mask, the bits after the field stay 0. -/
theorem fieldMask_getLsbD_of_le (p : Params) (m : Memory) (a : Nat) {n i : Nat} (hi : n ≤ i) :
    (fieldMask p m a n 0).getLsbD i = false := by
  obtain hlt | hge := Nat.lt_or_ge i 16
  · simp [fieldMask, hlt, Nat.not_lt.2 hi]
  · exact BitVec.getLsbD_of_ge _ _ hge

/-- R94 and R96: with no mask bit above the text, `DEGR` tells of a mask bit inside it. -/
theorem degr_iff_exists_mask_bit {r : Regs} (hdegr : r.status.degr = true ↔ r.rmask ≠ 0)
    (hmask : ∀ i, r.rlen.toNat ≤ i → r.rmask.getLsbD i = false) :
    r.status.degr = true ↔ ∃ i, i < r.rlen.toNat ∧ r.rmask.getLsbD i = true := by
  rw [hdegr]
  constructor
  · intro hne
    by_contra hnone
    refine hne (BitVec.eq_of_getLsbD_eq fun i _ => ?_)
    rw [show (0 : Half).getLsbD i = false from BitVec.getLsbD_zero]
    by_contra hbit
    exact hnone ⟨i, Nat.lt_of_not_le fun hle => hbit (hmask i hle), Bool.eq_true_of_not_eq_false hbit⟩
  · rintro ⟨i, -, hbit⟩ hzero
    rw [hzero] at hbit
    simp at hbit

/-- R93 and R96 of registers that hold a field, and no mask bit or those of the field. -/
theorem text_laws_of_field {p : Params} {m : Memory} {a n : Nat} {r : Regs} (hlen : r.rlen.toNat = n)
    (hbuf : r.rbuf = fieldBuf m a n (Vector.replicate 48 0)) (hmask : r.rmask = 0 ∨ r.rmask = fieldMask p m a n 0)
    (hdegr : r.status.degr = true ↔ r.rmask ≠ 0) :
    (∀ i : Fin 48, i.val < r.rlen.toNat → r.rbuf[i] = m.byte (a + i)) ∧
      (r.status.degr = true ↔ ∃ i, i < r.rlen.toNat ∧ r.rmask.getLsbD i = true) ∧
      ∀ i, r.rlen.toNat ≤ i → r.rmask.getLsbD i = false := by
  have habove : ∀ i, r.rlen.toNat ≤ i → r.rmask.getLsbD i = false := by
    intro i hi
    obtain hmask | hmask := hmask
    · rw [hmask]
      exact BitVec.getLsbD_zero
    · rw [hmask]
      exact fieldMask_getLsbD_of_le p m a (hlen ▸ hi)
  refine ⟨fun i hi => ?buf, degr_iff_exists_mask_bit hdegr habove, habove⟩
  case buf => rw [hbuf, fieldBuf_getElem_of_lt m a _ (hlen ▸ hi)]

theorem execRegs_justIssued_degr_iff (s : State) (c : Byte) (i : Instr) :
    (execRegs (s.justIssued c) i).status.degr = true ↔ (execRegs (s.justIssued c) i).rmask ≠ 0 :=
  execRegs_degr_iff_mask _ _ (by simp [State.justIssued, Status.zero])

theorem allZero_field_iff_bytes (m : Memory) :
    allZero (m.field 0x013F 4) = true ↔ m.bytes 0x013F 4 = [0, 0, 0, 0] := by
  have hreplicate : m.bytes 0x013F 4 = [0, 0, 0, 0] ↔ m.field 0x013F 4 = List.replicate 4 0 := Iff.rfl
  rw [hreplicate, List.eq_replicate_iff]
  simp [allZero]

/-- Settles O42: after `TITLE` and `MANUF` the registers hold the field; `MANUF` leaves the mask clear on four zero
bytes, which is when it sets `NA`. -/
theorem textLaws : Obligations.TextLaws := by
  intro s c start hrow hidle hlong
  obtain ⟨rfl, rfl⟩ | ⟨rfl, rfl⟩ := hrow
  case inl =>
    obtain ⟨hbuf, hdegr, habove⟩ := text_laws_of_field (p := s.par) (r := execRegs (s.justIssued 0x02) .title) rfl
      (writeRbuf_field s.inp.image 0x0134 16 _) (.inr (maskText_field _ _ _ _ _))
      (execRegs_justIssued_degr_iff s 0x02 .title)
    exact ⟨_, runs_execRegs (i := .title) hidle hlong rfl, ⟨rfl, rfl⟩, hbuf, hdegr, habove,
      iff_of_false nofun fun h => absurd h.1 (by decide)⟩
  case inr =>
    have hmask : (execRegs (s.justIssued 0x03) .manuf).rmask =
        if allZero (s.inp.image.field 0x013F 4) then 0 else fieldMask s.par s.inp.image 0x013F 4 0 := by
      rw [← maskText_field]
      rfl
    have hna : (execRegs (s.justIssued 0x03) .manuf).status.na = true ↔
        allZero (s.inp.image.field 0x013F 4) = true := by
      show (if allZero (s.inp.image.field 0x013F 4) then true else false) = true ↔ _
      simp
    obtain ⟨hbuf, hdegr, habove⟩ := text_laws_of_field (p := s.par) (r := execRegs (s.justIssued 0x03) .manuf) rfl
      (writeRbuf_field s.inp.image 0x013F 4 _) (hmask ▸ ite_eq_or_eq _ _ _)
      (execRegs_justIssued_degr_iff s 0x03 .manuf)
    refine ⟨_, runs_execRegs (i := .manuf) hidle hlong rfl, ⟨rfl, rfl⟩, hbuf, hdegr, habove, ?na⟩
    case na => exact hna.trans ((allZero_field_iff_bytes _).trans (by simp))

/-! ## The lookups -/

theorem isNone_iff_ofHit_unknown (hit : Option Text) : hit.isNone = true ↔ Label.ofHit hit = .unknown := by
  cases hit <;> simp [Label.ofHit]

/-- What R100 and R107 say of the run of one lookup command `c`. -/
def LookupLaw (s : State) (c : Byte) : Prop :=
  ∃ r, Runs s c 1 r ∧ ResultsValid r ∧
    (r.status.unk = true ↔ r.label = .unknown) ∧
    (r.status.newPub = true ↔ c = 0x06 ∧ s.inp.image.byte 0x014B = 0x33) ∧
    (r.status.newPub = true →
      r.res.toNat = (s.inp.image.byte 0x0144).toNat * 256 + (s.inp.image.byte 0x0145).toNat) ∧
    (r.status.newPub = false →
      r.res.toNat = (s.inp.image.byte (if c = 0x06 then 0x014B else 0x0140 + c.toNat)).toNat)

section
variable {s : State} (hidle : s.regs.status.busy = false) (hlong : 0x0150 ≤ s.inp.image.len)
include hidle hlong

/-- The commands with one table look up the byte at 0x0140 plus their opcode, and never set `NEWPUB`. -/
theorem lookupLaw_of_byte {i : Instr} {table : Inputs → Table Byte} (hstart : startAddr i = 0)
    (hother : opcode i ≠ 0x06)
    (hregs : ∀ t, execRegs t i = complete (lookupRegs (0x0140 + (opcode i).toNat) table t)) :
    LookupLaw s (opcode i) := by
  have hrun := runs_execRegs hidle hlong hstart
  rw [hregs] at hrun
  refine ⟨_, hrun, ⟨rfl, rfl⟩, isNone_iff_ofHit_unknown _, iff_of_false nofun fun h => hother h.1, nofun, fun _ => ?res⟩
  case res =>
    rw [if_neg hother]
    exact zext16_toNat _

/-- `PUBLISHER` looks up the two characters on the code 0x33 and the old code otherwise. -/
theorem lookupLaw_publisher : LookupLaw s 0x06 := by
  have hnewPub : (execRegs (s.justIssued 0x06) .publisher).status.newPub =
      decide (s.inp.image.byte 0x014B = 0x33) := rfl
  have hres : (execRegs (s.justIssued 0x06) .publisher).res =
      if s.inp.image.byte 0x014B = 0x33 then bigEndian16 (s.inp.image.byte 0x0144) (s.inp.image.byte 0x0145)
      else zext16 (s.inp.image.byte 0x014B) := rfl
  refine ⟨_, runs_execRegs (i := .publisher) hidle hlong rfl, ⟨rfl, rfl⟩, isNone_iff_ofHit_unknown _, ?_⟩
  rw [show opcode .publisher = 0x06 from rfl, hnewPub, hres]
  refine ⟨by simp, fun hnew => ?new, fun hold => ?old⟩
  case new => rw [if_pos (of_decide_eq_true hnew), bigEndian16_toNat]
  case old => rw [if_neg (of_decide_eq_false hold), zext16_toNat, if_pos rfl]

end

/-- Settles O43: `PUBLISHER` by its two branches, the other four as lookups of one byte. -/
theorem lookupLaws : Obligations.LookupLaws := by
  intro s c hc hidle hlong
  show LookupLaw s c
  simp only [List.mem_cons, List.not_mem_nil, or_false] at hc
  obtain rfl | rfl | rfl | rfl | rfl := hc
  · exact lookupLaw_publisher hidle hlong
  · exact lookupLaw_of_byte (i := .cart) (table := Inputs.tCart) hidle hlong rfl (by decide) fun _ => rfl
  · exact lookupLaw_of_byte (i := .romsz) (table := Inputs.tRomSz) hidle hlong rfl (by decide) fun _ => rfl
  · exact lookupLaw_of_byte (i := .ramsz) (table := Inputs.tRamSz) hidle hlong rfl (by decide) fun _ => rfl
  · exact lookupLaw_of_byte (i := .dest) (table := Inputs.tDest) hidle hlong rfl (by decide) fun _ => rfl

end Sys2Proof.Machine
end

section
/-! PROOFS. Whole runs (spec/10_state.md R25; spec/20_memory.md R56; spec/60_exceptions.md R187): the registers at
completion as a function of the parameters, the inputs and the word alone, the image bytes they depend on, and the
statements. -/

namespace Sys2Proof.Machine

/-! ## The registers at completion -/

/-- The state a command of one Exec step runs from, as far as its meaning looks at it. -/
def freshState (p : Params) (x : Inputs) (c : Byte) : State where
  par := p
  inp := x
  regs := { Regs.cleared c with status := { Status.zero with busy := true } }
  script := []
  lastRead := none

/-- The registers a completed command leaves on a long enough image. -/
def commandRegs (p : Params) (x : Inputs) : Instr → Regs
  | .hdrChk => hdrCompleted (hdrAccAfter x.image 25) (x.image.byte 0x014D)
  | .glbChk => glbCompleted x.image.len (glbSumAfter x.image x.image.len) (glbTarget x.image)
  | i => execRegs (freshState p x (opcode i)) i

/-- The registers at the end of an issue of `c` on an idle block: the record of a fault, or those of the command. -/
def completedRegs (p : Params) (x : Inputs) (c : Byte) : Regs :=
  match decodeByte c with
  | .error _ => raiseFault .illegalCommand (Regs.cleared c)
  | .ok i => if x.image.len < 0x0150 then raiseFault .inputTooShort (Regs.cleared c) else commandRegs p x i

theorem completedRegs_illegal {c : Byte} {e : Reject} (hc : decodeByte c = .error e) (p : Params) (x : Inputs) :
    completedRegs p x c = raiseFault .illegalCommand (Regs.cleared c) := by
  rw [completedRegs, hc]

theorem completedRegs_opcode (p : Params) (x : Inputs) (i : Instr) :
    completedRegs p x (opcode i) =
      if x.image.len < 0x0150 then raiseFault .inputTooShort (Regs.cleared (opcode i)) else commandRegs p x i := by
  rw [completedRegs, decodeByte_opcode]

theorem startAddr_singleStep {i : Instr} (hhdr : i ≠ .hdrChk) : startAddr i = 0 := by
  cases i with
  | hdrChk => exact absurd rfl hhdr
  | _ => rfl

theorem commandRegs_singleStep {i : Instr} (hhdr : i ≠ .hdrChk) (hglb : i ≠ .glbChk) (p : Params) (x : Inputs) :
    commandRegs p x i = execRegs (freshState p x (opcode i)) i := by
  cases i with
  | hdrChk => exact absurd rfl hhdr
  | glbChk => exact absurd rfl hglb
  | _ => rfl

/-- An Exec step looks at the parameters, the inputs and the registers only. -/
theorem execRegs_congr {s t : State} (hpar : s.par = t.par) (hinp : s.inp = t.inp) (hregs : s.regs = t.regs)
    (i : Instr) : execRegs s i = execRegs t i := by
  obtain ⟨_, _, _, _, _⟩ := s
  obtain ⟨_, _, _, _, _⟩ := t
  obtain rfl : _ = _ := hpar
  obtain rfl : _ = _ := hinp
  obtain rfl : _ = _ := hregs
  rfl

section
variable {s : State} (hidle : s.regs.status.busy = false)
include hidle

theorem runs_commandRegs (hlong : 0x0150 ≤ s.inp.image.len) (i : Instr) :
    Runs s (opcode i) (execSteps (opcode i) s.inp) (commandRegs s.par s.inp i) := by
  obtain rfl | hhdr := eq_or_ne i .hdrChk
  case inl =>
    rw [execSteps_hdrChk hlong]
    exact runs_hdrCompleted hidle hlong
  obtain rfl | hglb := eq_or_ne i .glbChk
  case inl =>
    rw [execSteps_glbChk hlong]
    exact runs_glbCompleted hidle hlong
  have hregs : execRegs (s.justIssued (opcode i)) i = execRegs (freshState s.par s.inp (opcode i)) i :=
    execRegs_congr rfl rfl rfl i
  rw [execSteps_singleStep hlong hhdr hglb, commandRegs_singleStep hhdr hglb, ← hregs]
  exact runs_execRegs hidle hlong (startAddr_singleStep hhdr)

/-- R211: the run of an issue, from its word and the inputs. -/
theorem runs_completedRegs (c : Byte) : Runs s c (execSteps c s.inp) (completedRegs s.par s.inp c) := by
  obtain ⟨i, -, rfl⟩ | hillegal := decodeByte_cases c
  case inr =>
    rw [execSteps_illegal hillegal, completedRegs_illegal hillegal, ← issue_illegal hidle hillegal s.inp.image.len]
    exact runs_zero s c
  rw [completedRegs_opcode]
  split
  · next hshort =>
    rw [execSteps_short i hshort, ← issue_short hidle (decodeByte_opcode i) hshort]
    exact runs_zero s (opcode i)
  · next hlong => exact runs_commandRegs hidle (Nat.not_lt.1 hlong) i

end

/-- Settles O48: both runs end with `completedRegs`, which does not look at the registers before the issue. -/
theorem completionIsPure : Obligations.CompletionIsPure := by
  intro s1 s2 c hidle1 hidle2 hpar hinp
  have hrun1 := runs_completedRegs hidle1 c
  have hrun2 := runs_completedRegs hidle2 c
  obtain ⟨⟨r, hrun, hdone, -, -⟩, -⟩ := everyCommandCompletes s1 c hidle1
  rw [← hpar, ← hinp] at hrun2
  exact ⟨_, hrun1, hinp ▸ hrun2, hrun1.unique hrun ▸ hdone⟩

/-! ## A run after a fault -/

theorem run_succ_of_step {s t : State} (h : step s = .next t) (n : Nat) :
    Host.Core.run Sys2Proof.core (n + 1) s = Host.Core.run Sys2Proof.core n t := by
  have hcore : Sys2Proof.core.step s = .next t := h
  simp only [Host.Core.run, hcore]

/-- Settles O50: the fault leaves an idle block with the same parameters and inputs, and the second run looks at nothing
else. -/
theorem faultLeavesNoTrace : Obligations.FaultLeavesNoTrace := by
  intro s bad c ts hidle hbad
  have hfault := issue_illegal hidle (decodeByte_of_not_range hbad) s.inp.image.len
  have hrun := runs_completedRegs (s := { s with regs := raiseFault .illegalCommand (Regs.cleared bad) }) rfl c ts
  rw [← hfault] at hrun
  exact ⟨_, (run_succ_of_step (step_issue rfl) _).trans hrun, runs_completedRegs hidle c⟩

/-! ## The bytes a result depends on -/

theorem Memory.field_congr {m m' : Memory} {a n : Nat} (h : ∀ x, a ≤ x → x < a + n → m'.byte x = m.byte x) :
    m'.field a n = m.field a n :=
  List.map_congr_left fun i hi => h (a + i) (Nat.le_add_right a i) (Nat.add_lt_add_left (List.mem_range.1 hi) a)

/-- The state with another image in place. -/
def State.withImage (s : State) (m : Memory) : State := { s with inp := { s.inp with image := m } }

/-- R56 for the commands of one Exec step. -/
theorem execRegs_withImage {s : State} {m : Memory} {i : Instr} (hhdr : i ≠ .hdrChk) (hglb : i ≠ .glbChk)
    (h : ∀ a, readSet i s.inp.image a → m.byte a = s.inp.image.byte a) :
    execRegs (s.withImage m) i = execRegs s i := by
  cases i with
  | hdrChk => exact absurd rfl hhdr
  | glbChk => exact absurd rfl hglb
  | logoChk =>
    have hfield : m.field 0x0104 48 = s.inp.image.field 0x0104 48 :=
      Memory.field_congr fun a hge hlt => h a ⟨hge, Nat.le_of_lt_succ hlt⟩
    simp only [execRegs, logoChkRegs, State.withImage, hfield]
  | logoRender =>
    have hfield : m.field 0x0104 48 = s.inp.image.field 0x0104 48 :=
      Memory.field_congr fun a hge hlt => h a ⟨hge, Nat.le_of_lt_succ hlt⟩
    simp only [execRegs, logoRenderRegs, State.withImage, hfield]
  | title =>
    have hfield : m.field 0x0134 16 = s.inp.image.field 0x0134 16 :=
      Memory.field_congr fun a hge hlt => h a ⟨hge, Nat.le_of_lt_succ hlt⟩
    simp only [execRegs, titleRegs, State.withImage, hfield]
  | manuf =>
    have hfield : m.field 0x013F 4 = s.inp.image.field 0x013F 4 :=
      Memory.field_congr fun a hge hlt => h a ⟨hge, Nat.le_of_lt_succ hlt⟩
    simp only [execRegs, manufRegs, State.withImage, hfield]
  | publisher =>
    have hold : (s.withImage m).inp.image.byte 0x014B = s.inp.image.byte 0x014B := h _ (.inl rfl)
    simp only [execRegs, publisherRegs, publisherHit]
    rw [hold]
    by_cases hnew : s.inp.image.byte 0x014B = 0x33
    · have h0 : (s.withImage m).inp.image.byte 0x0144 = s.inp.image.byte 0x0144 := h _ (.inr ⟨hnew, .inl rfl⟩)
      have h1 : (s.withImage m).inp.image.byte 0x0145 = s.inp.image.byte 0x0145 := h _ (.inr ⟨hnew, .inr rfl⟩)
      have hmask : publisherMask (s.withImage m) (s.withImage m).regs.rmask = publisherMask s s.regs.rmask := by
        rw [publisherMask, h0, h1]
        rfl
      rw [hmask, h0, h1]
      rfl
    · simp only [if_neg hnew]
      rfl
  | cgb | sgb | maskver => simp only [execRegs, rawRegs, State.withImage, h _ rfl]
  | cart | romsz | ramsz | dest => simp only [execRegs, lookupRegs, rawRegs, State.withImage, h _ rfl]

/-- R56 for every command on long enough images. -/
theorem commandRegs_withImage {p : Params} {x : Inputs} {m : Memory} {i : Instr}
    (hlong : 0x0150 ≤ x.image.len) (hlen : i = .glbChk → m.len = x.image.len)
    (h : ∀ a, readSet i x.image a → m.byte a = x.image.byte a) :
    commandRegs p { x with image := m } i = commandRegs p x i := by
  obtain rfl | hhdr := eq_or_ne i .hdrChk
  case inl =>
    have hbytes : m.bytes 0x0134 25 = x.image.bytes 0x0134 25 :=
      Memory.field_congr fun a hge hlt => h a ⟨hge, by omega⟩
    have htarget : m.byte 0x014D = x.image.byte 0x014D := h _ ⟨by decide, by decide⟩
    simp only [commandRegs, hdrAccAfter, hbytes, htarget]
  obtain rfl | hglb := eq_or_ne i .glbChk
  case inl =>
    have hlen := hlen rfl
    have hsum : glbSumAfter m x.image.len = glbSumAfter x.image x.image.len :=
      glbSumAfter_congr fun a ha => by rw [glbSummand, glbSummand, h a ha]
    have htarget : glbTarget m = glbTarget x.image := by
      rw [glbTarget, glbTarget, h 0x014E (Nat.lt_of_lt_of_le (by decide) hlong),
        h 0x014F (Nat.lt_of_lt_of_le (by decide) hlong)]
    simp only [commandRegs, hlen, hsum, htarget]
  rw [commandRegs_singleStep hhdr hglb, commandRegs_singleStep hhdr hglb]
  exact execRegs_withImage (s := freshState p x (opcode i)) hhdr hglb h

/-- The number of Exec steps looks at the length of the image only, and of the legal commands only `GLB_CHK` does. -/
theorem execSteps_withImage {x : Inputs} {m : Memory} {i : Instr} (hlong : 0x0150 ≤ x.image.len)
    (hlong' : 0x0150 ≤ m.len) (hlen : i = .glbChk → m.len = x.image.len) :
    execSteps (opcode i) { x with image := m } = execSteps (opcode i) x := by
  obtain rfl | hhdr := eq_or_ne i .hdrChk
  case inl => rw [execSteps_hdrChk hlong, execSteps_hdrChk hlong']
  obtain rfl | hglb := eq_or_ne i .glbChk
  case inl =>
    rw [execSteps_glbChk hlong, execSteps_glbChk hlong']
    exact congrArg Nat.succ (hlen rfl)
  rw [execSteps_singleStep hlong hhdr hglb, execSteps_singleStep hlong' hhdr hglb]

/-- Settles O49: both runs take the same number of steps and leave the registers of the command, which agree. -/
theorem resultsDependOnlyOnTheReadSet : Obligations.ResultsDependOnlyOnTheReadSet := by
  intro s m i hidle hlong hlong' hlen h
  refine ⟨_, runs_commandRegs hidle hlong i, ?_⟩
  rw [← execSteps_withImage hlong hlong' hlen, ← commandRegs_withImage hlong hlen h]
  exact runs_commandRegs (s := s.withImage m) hidle hlong' i

end Sys2Proof.Machine
end

section
/-! PROOFS. The host's loop (spec/30_encoding.md R68; spec/70_reset_and_hazards.md R210): which states a run reaches,
that a waiting host sees the command in progress complete, one pass of the loop for one word, and the statement. -/

namespace Sys2Proof.Machine

/-! ## Reaching a state -/

/-- Some number of steps leads from `s` to `t`. -/
def Reaches (s t : State) : Prop := ∃ n, Host.Core.run Sys2Proof.core n s = .next t

theorem Reaches.refl (s : State) : Reaches s s := ⟨0, rfl⟩

theorem Reaches.of_step {s t : State} (h : step s = .next t) : Reaches s t :=
  ⟨1, run_succ_of_step h 0⟩

theorem Reaches.trans {s t u : State} : Reaches s t → Reaches t u → Reaches s u := by
  rintro ⟨n, hn⟩ ⟨k, hk⟩
  exact ⟨n + k, (run_add n k hn).trans hk⟩

theorem Reaches.head {s t u : State} (h : step s = .next t) (htu : Reaches t u) : Reaches s u :=
  (Reaches.of_step h).trans htu

/-- A run keeps the invariant, as every step does. -/
theorem Reaches.inv {s t : State} (h : Reaches s t) (hinv : Inv s) : Inv t := by
  obtain ⟨n, hn⟩ := h
  induction n generalizing s with
  | zero =>
    obtain rfl : s = t := Host.Outcome.next.inj hn
    exact hinv
  | succ n ih =>
    simp only [Host.Core.run] at hn
    split at hn
    · next s' hs' => exact ih (everyStepKeepsTheInvariant s s' hinv hs') hn
    · cases hn
    · cases hn

/-! ## The block's turns while the host waits -/

/-- The value of `ADDR` at which a command completes (R131, R146). -/
def indexLimit (x : Inputs) : Instr → Nat
  | .hdrChk => 0x014D
  | .glbChk => x.image.len
  | _ => 0

/-- The block acts on this script for as long as the command in progress runs. -/
def WaitsForBlock (ts : List Turn) : Prop :=
  ∀ s : State, s.script = ts → s.regs.status.busy = true → s.regs.status.done = false → step s = blockTurn s

theorem waitsForBlock_awaitIdle (ts : List Turn) : WaitsForBlock (.awaitIdle :: ts) :=
  fun _ hs hbusy _ => step_awaitIdle_busy hs hbusy

theorem waitsForBlock_awaitDone (ts : List Turn) : WaitsForBlock (.awaitDone :: ts) :=
  fun _ hs _ hdone => step_awaitDone_notDone hs hdone

/-- A completed command, and nothing but the block's registers changed on the way. -/
structure CompletedFrom (s t : State) : Prop where
  reaches : Reaches s t
  script_eq : t.script = s.script
  inp_eq : t.inp = s.inp
  op_eq : t.regs.op = s.regs.op
  idle : t.regs.status.busy = false
  done : t.regs.status.done = true

theorem CompletedFrom.of_step {s t u : State} (hst : step s = .next t) (h : CompletedFrom t u)
    (hscript : t.script = s.script) (hinp : t.inp = s.inp) (hop : t.regs.op = s.regs.op) : CompletedFrom s u :=
  ⟨.head hst h.reaches, h.script_eq.trans hscript, h.inp_eq.trans hinp, h.op_eq.trans hop, h.idle, h.done⟩

theorem Running.step_of_waiting {s : State} {i : Instr} (hrun : Running s i) (hwait : WaitsForBlock s.script) :
    step s = .next (s.withRegs (execRegs s i)) := by
  have hstatus := hrun.cleared.status_eq
  rw [hwait s rfl (by rw [hstatus]) (by rw [hstatus]; rfl), blockTurn_running (by rw [hstatus]) hrun.op_eq,
    exec_of_long hrun.long]

/-- A step of the command in progress completes it, or brings the index nearer to its limit (R21). -/
theorem Running.completes_or_advances {s : State} {i : Instr} (hrun : Running s i) (hwait : WaitsForBlock s.script) :
    CompletedFrom s (s.withRegs (execRegs s i)) ∨
    (s.regs.addr < indexLimit s.inp i ∧ Running (s.withRegs (execRegs s i)) i ∧
      (execRegs s i).addr = s.regs.addr + 1) := by
  obtain ⟨hidle, hdone, -⟩ | ⟨rfl, ha, hregs⟩ | ⟨rfl, ha, hregs⟩ := execRegs_completes_or_accumulates s i
  · exact .inl ⟨.of_step (hrun.step_of_waiting hwait), rfl, rfl, (execRegs_frame s i).1, hidle, hdone⟩
  · rw [hregs]
    exact .inr ⟨Nat.lt_succ_of_le ha, hrun.hdrAccumulated ha, rfl⟩
  · rw [hregs]
    exact .inr ⟨ha, hrun.glbAccumulated ha, rfl⟩

/-- R210: the command in progress completes within `k` accumulating steps and one more, `k` being the distance of the
index from its limit. -/
theorem exists_completedFrom (k : Nat) {s : State} {i : Instr} (hrun : Running s i)
    (hk : indexLimit s.inp i ≤ s.regs.addr + k) (hwait : WaitsForBlock s.script) : ∃ t, CompletedFrom s t := by
  induction k generalizing s with
  | zero =>
    obtain hcomplete | ⟨hlt, -⟩ := hrun.completes_or_advances hwait
    · exact ⟨_, hcomplete⟩
    · omega
  | succ k ih =>
    obtain hcomplete | ⟨-, hnext, haddr⟩ := hrun.completes_or_advances hwait
    · exact ⟨_, hcomplete⟩
    · have hk' : indexLimit s.inp i ≤ (execRegs s i).addr + k := by omega
      obtain ⟨t, ht⟩ := ih hnext hk' hwait
      exact ⟨t, ht.of_step (hrun.step_of_waiting hwait) rfl rfl (execRegs_frame s i).1⟩

theorem Inv.exists_completedFrom {s : State} (hinv : Inv s) (hbusy : s.regs.status.busy = true)
    (hwait : WaitsForBlock s.script) : ∃ t, CompletedFrom s t := by
  obtain ⟨i, hrun⟩ := hinv.running hbusy
  exact Machine.exists_completedFrom (indexLimit s.inp i) hrun (Nat.le_add_left _ _) hwait

/-! ## One pass of the loop -/

/-- The host's waiting for an idle block ends, and only the block's registers changed. -/
theorem exists_reaches_idle {s : State} {ts : List Turn} (hinv : Inv s) (hs : s.script = .awaitIdle :: ts) :
    ∃ t, Reaches s t ∧ t.script = ts ∧ t.inp = s.inp ∧ t.regs.status.busy = false := by
  cases hbusy : s.regs.status.busy with
  | false => exact ⟨_, .of_step (step_awaitIdle_idle hs hbusy), rfl, rfl, hbusy⟩
  | true =>
    obtain ⟨t, ht⟩ := hinv.exists_completedFrom hbusy (hs ▸ waitsForBlock_awaitIdle ts)
    have hlast := step_awaitIdle_idle (ht.script_eq.trans hs) ht.idle
    exact ⟨_, ht.reaches.trans (.of_step hlast), rfl, ht.inp_eq, ht.idle⟩

/-- The host's waiting for `DONE` ends where a command is in progress or has completed. -/
theorem exists_reaches_done {s : State} {ts : List Turn} (hinv : Inv s) (hs : s.script = .awaitDone :: ts)
    (hactive : s.regs.status.busy = true ∨ s.regs.status.done = true) :
    ∃ t, Reaches s t ∧ t.script = ts ∧ t.inp = s.inp ∧ t.regs.op = s.regs.op ∧ t.regs.status.busy = false ∧
      t.regs.status.done = true := by
  cases hbusy : s.regs.status.busy with
  | false =>
    have hdone := hactive.resolve_left (by simp [hbusy])
    exact ⟨_, .of_step (step_awaitDone_done hs hdone), rfl, rfl, rfl, hbusy, hdone⟩
  | true =>
    obtain ⟨t, ht⟩ := hinv.exists_completedFrom hbusy (hs ▸ waitsForBlock_awaitDone ts)
    have hlast := step_awaitDone_done (ht.script_eq.trans hs) ht.done
    exact ⟨_, ht.reaches.trans (.of_step hlast), rfl, ht.inp_eq, ht.op_eq, ht.idle, ht.done⟩

/-- Reads take their turns and change no register (R22). -/
theorem exists_reaches_after_reads {s : State} (rs : List Reg) {ts : List Turn} (hs : s.script = rs.map .read ++ ts) :
    ∃ t, Reaches s t ∧ t.script = ts ∧ t.inp = s.inp ∧ t.regs = s.regs := by
  induction rs generalizing s with
  | nil => exact ⟨s, .refl s, hs, rfl, rfl⟩
  | cons r rs ih =>
    have hfirst := step_read hs
    obtain ⟨t, ht, hscript, hinp, hregs⟩ :=
      ih (s := { s with script := rs.map .read ++ ts, lastRead := some (r, readReg r s.regs) }) rfl
    exact ⟨t, .head hfirst ht, hscript, hinp, hregs⟩

/-- An accepted issue holds its word in `OP`, and leaves a command in progress or the record of a fault (R19). -/
theorem issue_op_active {r : Regs} (hidle : r.status.busy = false) (c : Byte) (len : Nat) :
    (issue c len r).op = c ∧ ((issue c len r).status.busy = true ∨ (issue c len r).status.done = true) := by
  obtain ⟨code, -, hissue⟩ | ⟨i, -, -, hissue⟩ := issue_cases hidle c len
  · rw [hissue]
    exact ⟨rfl, .inr rfl⟩
  · rw [hissue]
    exact ⟨rfl, .inl rfl⟩

/-- R68: one pass of the loop, for the word `c`. -/
theorem exists_reaches_after_word {s : State} {c : Byte} {cs : List Byte} (hinv : Inv s)
    (hs : s.script = hostLoop (c :: cs)) :
    ∃ t, Reaches s t ∧ t.script = hostLoop cs ∧ t.inp = s.inp ∧ t.regs.status.done = true ∧
      t.regs.status.busy = false ∧ t.regs.op = c := by
  obtain ⟨s1, h1, hscript1, hinp1, hidle1⟩ := exists_reaches_idle hinv hs
  have hissue := step_issue hscript1
  obtain ⟨hop, hactive⟩ := issue_op_active hidle1 c s1.inp.image.len
  have h2 := h1.trans (.of_step hissue)
  obtain ⟨s3, h3, hscript3, hinp3, hop3, hidle3, hdone3⟩ := exists_reaches_done (h2.inv hinv) rfl hactive
  obtain ⟨s4, h4, hscript4, hinp4, hregs4⟩ := exists_reaches_after_reads resultRegs hscript3
  exact ⟨s4, (h2.trans h3).trans h4, hscript4, hinp4.trans (hinp3.trans hinp1), hregs4 ▸ hdone3, hregs4 ▸ hidle3,
    hregs4 ▸ hop3.trans hop⟩

/-- Settles O51: by induction over the words before the last, one pass of the loop for each. -/
theorem hostLoopRunsToItsEnd : Obligations.HostLoopRunsToItsEnd := by
  intro s cs c hinv hs
  have hreaches : ∃ t, Reaches s t ∧ t.script = [] ∧ t.inp = s.inp ∧ t.regs.status.done = true ∧
      t.regs.status.busy = false ∧ t.regs.op = c := by
    induction cs generalizing s with
    | nil => exact exists_reaches_after_word hinv hs
    | cons c' cs ih =>
      obtain ⟨s', h', hscript', hinp', -⟩ := exists_reaches_after_word hinv hs
      obtain ⟨t, ht, hscript, hinp, hend⟩ := ih s' (h'.inv hinv) hscript'
      exact ⟨t, h'.trans ht, hscript, hinp.trans hinp', hend⟩
  obtain ⟨t, ⟨n, hn⟩, hend⟩ := hreaches
  exact ⟨n, t, hn, hend⟩

end Sys2Proof.Machine
end

section
/-! PROOFS. The numbers of the registers and the `STATUS` word (spec/10_state.md R10, R13). -/

namespace Sys2Proof.Machine

/-! ## The numbers of the registers -/

theorem Reg.ofNumber_of_rbuf {n : Nat} (h : 16 ≤ n ∧ n < 64) :
    Reg.ofNumber n = some (.rbuf ⟨n - 16, by omega⟩) := by
  unfold Reg.ofNumber
  split
  case h_11 => rw [dif_pos h]
  all_goals omega

theorem Reg.ofNumber_number (r : Reg) : Reg.ofNumber r.number = some r := by
  cases r with
  | rbuf i =>
    rw [Reg.number, Reg.ofNumber_of_rbuf (by omega)]
    simp
  | _ => rfl

theorem Reg.number_of_ofNumber {n : Nat} {r : Reg} (h : Reg.ofNumber n = some r) : r.number = n := by
  unfold Reg.ofNumber at h
  split at h
  case h_11 =>
    split at h
    · cases h
      simp only [Reg.number]
      omega
    · cases h
  all_goals (cases h; rfl)

/-- Settles O12: `Reg.ofNumber` is the inverse of `Reg.number` where it answers. -/
theorem registerNumbers : Obligations.RegisterNumbers :=
  ⟨rfl, fun _ => rfl, fun _ _ => ⟨Reg.number_of_ofNumber, fun h => h ▸ Reg.ofNumber_number _⟩⟩

/-! ## The `STATUS` word -/

/-- The number whose binary digits are the fields of `STATUS`. -/
def Status.number (st : Status) : Nat :=
  st.busy.toNat + 2 * st.done.toNat + 4 * st.pass.toNat + 8 * st.unk.toNat + 16 * st.na.toNat + 32 * st.newPub.toNat
    + 64 * st.degr.toNat + 128 * st.fault.toNat + 256 * st.fcode.code

theorem FaultCode.code_le (c : FaultCode) : c.code ≤ 2 := by
  cases c <;> decide

theorem Status.word_getLsbD {st : Status} {i : Nat} {b : Bool} (hi : i < 16) (h : st.number / 2 ^ i % 2 = b.toNat) :
    st.word.getLsbD i = b := by
  have hbit : st.word.getLsbD i = st.number.testBit i := by
    rw [Status.word, BitVec.getLsbD_ofNat, decide_eq_true hi]
    rfl
  rw [hbit, Nat.testBit_eq_decide_div_mod_eq, h]
  cases b <;> rfl

theorem Status.word_extract (st : Status) (i w : Nat) :
    (st.word.extractLsb' i w).toNat = st.number % 65536 / 2 ^ i % 2 ^ w := by
  rw [BitVec.extractLsb'_toNat, Nat.shiftRight_eq_div_pow]
  rfl

/-- Settles O13: each field is below its place's size, so the digits of the number are the fields. -/
theorem statusWordLayout : Obligations.StatusWordLayout := by
  intro st
  have hcode := st.fcode.code_le
  have hbusy := st.busy.toNat_le
  have hdone := st.done.toNat_le
  have hpass := st.pass.toNat_le
  have hunk := st.unk.toNat_le
  have hna := st.na.toNat_le
  have hnewPub := st.newPub.toNat_le
  have hdegr := st.degr.toNat_le
  have hfault := st.fault.toNat_le
  refine ⟨Status.word_getLsbD (by decide) ?_, Status.word_getLsbD (by decide) ?_, Status.word_getLsbD (by decide) ?_,
    Status.word_getLsbD (by decide) ?_, Status.word_getLsbD (by decide) ?_, Status.word_getLsbD (by decide) ?_,
    Status.word_getLsbD (by decide) ?_, Status.word_getLsbD (by decide) ?_, ?code, ?reserved⟩
  case code =>
    show _ = st.fcode.code
    rw [Status.word_extract, Status.number]
    omega
  case reserved =>
    apply BitVec.eq_of_toNat_eq
    show _ = 0
    rw [Status.word_extract, Status.number]
    omega
  all_goals
    rw [Status.number]
    omega

end Sys2Proof.Machine
end

section
/-! PROOFS. The report strings (spec/46_report_strings.md, R91, R94, R160 to R171): the digits of `Hex2`, what `Trim`
removes, the reports of each command where results are valid, and the statements. -/

namespace Sys2Proof.Machine

/-! ## When a report is defined -/

theorem report_isSome_iff (pr : Presentation) (i : Instr) (r : Regs) :
    (report pr i r).isSome = true ↔ ResultsValid r := by
  simp [report, ResultsValid]

/-! ## `Hex2` -/

/-- The 16 upper-case hexadecimal digits in order (R161). -/
def hexDigits : Text := ['0', '1', '2', '3', '4', '5', '6', '7', '8', '9', 'A', 'B', 'C', 'D', 'E', 'F']

theorem hexDigit_mem (n : BitVec 4) : hexDigit n ∈ hexDigits ∧ hexDigits.idxOf (hexDigit n) = n.toNat := by
  decide +revert

theorem hexDigit_eq_getD (n : BitVec 4) : hexDigit n = hexDigits.getD n.toNat ' ' := by
  decide +revert

theorem lowByte_toNat (v : Half) : (lowByte v).toNat = v.toNat % 256 := by
  simp [lowByte]

/-- Settles O55: each half of the byte is one digit. -/
theorem defaultHexFormat : Obligations.DefaultHexFormat := by
  refine ⟨fun b => ?digits, fun unknownText repl filled blank r hvalid => ?report⟩
  case digits =>
    obtain ⟨hhigh, hhighIdx⟩ := hexDigit_mem (hi4 b)
    obtain ⟨hlow, hlowIdx⟩ := hexDigit_mem (lo4 b)
    refine ⟨_, hhigh, _, hlow, rfl, ?_⟩
    show hexDigits.idxOf (hexDigit (hi4 b)) * 16 + hexDigits.idxOf (hexDigit (lo4 b)) = b.toNat
    rw [hhighIdx, hlowIdx, hi4_toNat, lo4_toNat]
    omega
  case report =>
    have hhigh : hexDigit (hi4 (lowByte r.res)) = hexDigits.getD (r.res.toNat % 256 / 16) ' ' := by
      rw [hexDigit_eq_getD, hi4_toNat, lowByte_toNat]
    have hlow : hexDigit (lo4 (lowByte r.res)) = hexDigits.getD (r.res.toNat % 16) ' ' := by
      rw [hexDigit_eq_getD, lo4_toNat, lowByte_toNat, Nat.mod_mod_of_dvd _ (by decide)]
    rw [report_of_valid _ _ hvalid]
    show some [hexDigit (hi4 (lowByte r.res)), hexDigit (lo4 (lowByte r.res))] = _
    rw [hhigh, hlow]
    rfl

/-! ## The reports of one field, label or verdict -/

theorem Regs.bytes_two (r : Regs) : r.bytes 2 = [r.rbuf[0], r.rbuf[1]] := by
  refine List.ext_getElem (by simp [Regs.bytes]) fun i hi _ => ?_
  have hi : i < 2 := by simpa [Regs.bytes] using hi
  match i with
  | 0 | 1 => simp [Regs.bytes]

/-- Settles O52: the reports are defined by `report_isSome_iff`; their texts are the cases of `reportText`. -/
theorem reportFormats : Obligations.ReportFormats := by
  refine fun pr r => ⟨fun i => report_isSome_iff pr i r, fun hvalid => ?_⟩
  have hreport := fun i => report_of_valid pr i hvalid
  refine ⟨hreport .cgb, hreport .sgb, hreport .maskver, fun hold => ?old, fun hnew => ?new, hreport .dest,
    hreport .cart, hreport .romsz, hreport .ramsz, fun i hi => ?verdict⟩
  case old =>
    rw [hreport, reportText, hold]
    rfl
  case new =>
    rw [hreport, reportText, hnew, if_pos rfl, codeAndName, Regs.bytes_two]
    rfl
  case verdict =>
    rw [hreport]
    simp only [List.mem_cons, List.not_mem_nil, or_false] at hi
    obtain rfl | rfl | rfl := hi
    · rfl
    · rfl
    · rfl

/-! ## The texts -/

theorem trim_eq_rdropWhile (bs : List Byte) : trim bs = bs.rdropWhile (· == 0) := rfl

/-- R91: what `Trim` removes is a suffix of zero bytes. -/
theorem exists_trim_append_zeros (bs : List Byte) : ∃ n, bs = trim bs ++ List.replicate n 0 := by
  refine ⟨(bs.rtakeWhile (· == 0)).length, ?_⟩
  have hzeros : bs.rtakeWhile (· == 0) = List.replicate (bs.rtakeWhile (· == 0)).length 0 :=
    List.eq_replicate_iff.2 ⟨rfl, fun b hb => by simpa using List.mem_rtakeWhile_imp hb⟩
  rw [← hzeros, trim_eq_rdropWhile, List.rdropWhile_append_rtakeWhile]

/-- R91: `Trim` removes all of it. -/
theorem trim_getLast?_ne (bs : List Byte) : (trim bs).getLast? ≠ some 0 := by
  rw [trim_eq_rdropWhile]
  intro hlast
  obtain ⟨hne, hzero⟩ := List.mem_getLast?_eq_getLast hlast
  exact List.rdropWhile_last_not _ bs hne (by rw [← hzero]; rfl)

/-- Settles O53: `Trim` by its two laws, and the texts character by character. -/
theorem trimmedTitle : Obligations.TrimmedTitle := by
  refine ⟨fun bs => ⟨exists_trim_append_zeros bs, trim_getLast?_ne bs⟩, fun pr r hvalid => ⟨?title, ?manuf⟩, by decide⟩
  case title =>
    rw [report_of_valid pr _ hvalid, reportText, Presentation.text_eq_map]
    rfl
  case manuf =>
    rw [report_of_valid pr _ hvalid, reportText, Presentation.text_eq_map]
    rfl

/-! ## The logo grid -/

/-- R171: character `x` of line `y`. -/
theorem gridLine_getElem? (pr : Presentation) (r : Regs) (y : Fin 8) (x : Fin 48) :
    (gridLine pr r y)[x.val]? =
      some (if (r.rbuf[6 * y.val + x.val / 8]'(by omega)).getLsbD (7 - x.val % 8) then pr.filled else pr.blank) := by
  have hcell : r.cell y x = (r.rbuf[6 * y.val + x.val / 8]'(by omega)).getLsbD (7 - x.val % 8) := by
    rw [Regs.cell, List.getD_eq_getElem _ _ (by rw [Vector.length_toList]; omega), Vector.getElem_toList]
  simp [gridLine, hcell]

/-- Settles O54: the lines are `gridLine` of each row. -/
theorem logoGridReport : Obligations.LogoGridReport := by
  intro pr r hvalid
  refine ⟨(List.range 8).map (gridLine pr r), report_of_valid pr .logoRender hvalid, by simp, ?length, fun y x => ?cell⟩
  case length => simp
  case cell =>
    have hline : ((List.range 8).map (gridLine pr r))[y.val]? = some (gridLine pr r y) := by simp
    rw [hline]
    exact gridLine_getElem? pr r y x

end Sys2Proof.Machine
end
